-- ==== Sys2Proof/Word.lean ====
section
/-! DEFINITION. The word types of CORE (spec 00_scope R5, R8, R9): every value is an unsigned bit vector of the
width the spec names. -/

namespace Sys2Proof

/-- XLEN: a general register, a timer, a memory byte, an immediate `kk` (R5). -/
abbrev Byte := BitVec 8

/-- ILEN: the index register, pc, a stack slot, an instruction word (R5). -/
abbrev Word := BitVec 16

/-- A register selector, `x` or `y`: every value is a legal register (R83). -/
abbrev RegNum := BitVec 4

/-- The 12-bit immediate `nnn` (R83). -/
abbrev Addr12 := BitVec 12

/-- The 4-bit immediate `n` (R83). -/
abbrev Nibble := BitVec 4

end Sys2Proof
end

