-- ==== Sys2Proof/Config.lean ====
section
/-! DEFINITION. The implementation parameters of spec 00_scope R5, and the free values of the model. The default
of FONT stands in Machine/Font.lean. -/

namespace Sys2Proof

/-- XLEN: the width in bits of a general register, a timer and a memory byte, the type `Byte` (R5). -/
@[simp] abbrev Config.xlen : Nat := 8
/-- ILEN: the width in bits of the index register, pc, a stack slot and an instruction, the type `Word` (R5). -/
@[simp] abbrev Config.ilen : Nat := 16
/-- NREGS (R5). -/
@[simp] abbrev Config.nregs : Nat := 16
/-- MEM_SIZE: bytes of memory, addresses 0x000 to 0xFFF (R5). -/
@[simp] abbrev Config.memSize : Nat := 0x1000
/-- PROG_BASE: load address of the program and reset value of pc (R5). -/
@[simp] abbrev Config.progBase : Nat := 0x200
/-- ROM_MAX: largest program image, MEM_SIZE - PROG_BASE (R5). -/
@[simp] abbrev Config.romMax : Nat := 3584
/-- FONT_BASE: address of glyph 0 (R5). -/
@[simp] abbrev Config.fontBase : Nat := 0x050
/-- GLYPH_BYTES (R5). -/
@[simp] abbrev Config.glyphBytes : Nat := 5
/-- NGLYPHS (R5). -/
@[simp] abbrev Config.nglyphs : Nat := 16
/-- STACK_DEPTH (R5). -/
@[simp] abbrev Config.stackDepth : Nat := 16
/-- FB_W (R5). -/
@[simp] abbrev Config.fbW : Nat := 64
/-- FB_H (R5). -/
@[simp] abbrev Config.fbH : Nat := 32
/-- NKEYS (R5). -/
@[simp] abbrev Config.nkeys : Nat := 16

/-- Parameter FONT (R5, R31, decision D17): NGLYPHS glyphs of GLYPH_BYTES bytes, each top row first. An argument of
`State.resetWith` and of the host's moves, since nothing but reset depends on it. -/
abbrev Font := Vector (Vector Byte Config.glyphBytes) Config.nglyphs

/-- The three values R5 and R203 name for a set sprite bit off the grid. -/
inductive DrawEdgePolicy where
  | fault
  | clip
  | wrap
  deriving DecidableEq, Repr

/-- `draw_edge_policy`, at its default `fault`, the one value the spec defines (R5, R203, decision D12; log 11). -/
abbrev Config.drawEdgePolicy : DrawEdgePolicy := .fault

/-- FREE VALUE (log 2): the key bits the host presents to the step after the `k`-th completed one (R29, U14). No
body: nothing can be proved of a value of it. -/
opaque Config.keysAt : Nat → BitVec 16

/-- FREE VALUE (log 2): the random byte of the step after the `k`-th completed one, under no law (R11, U7). -/
opaque Config.rndAt : Nat → Byte

end Sys2Proof
end

