-- ==== Sys2Proof/Syntax.lean ====
section
/-! DEFINITION. The 34 instructions of CORE, one constructor per row of spec/opcode_table.json in its order
(30_encoding R86 to R90, R98), and the assembler forms of R96. -/

namespace Sys2Proof

/-- An instruction with its operand fields (R81). Ignored bits (R91) are no operands and leave no trace here. -/
inductive Instr where
  /-- `CLS` (R200) -/
  | cls
  /-- `RET` (R130) -/
  | ret
  /-- `JP nnn` (R131) -/
  | jp (nnn : Addr12)
  /-- `CALL nnn` (R132) -/
  | call (nnn : Addr12)
  /-- `SE Vx,kk` (R133) -/
  | seImm (x : RegNum) (kk : Byte)
  /-- `SNE Vx,kk` (R134) -/
  | sneImm (x : RegNum) (kk : Byte)
  /-- `SE Vx,Vy` (R135) -/
  | seReg (x y : RegNum)
  /-- `LD Vx,kk` (R150) -/
  | ldImm (x : RegNum) (kk : Byte)
  /-- `ADD Vx,kk` (R151) -/
  | addImm (x : RegNum) (kk : Byte)
  /-- `LD Vx,Vy` (R152) -/
  | ldReg (x y : RegNum)
  /-- `OR Vx,Vy` (R153) -/
  | orReg (x y : RegNum)
  /-- `AND Vx,Vy` (R154) -/
  | andReg (x y : RegNum)
  /-- `XOR Vx,Vy` (R155) -/
  | xorReg (x y : RegNum)
  /-- `ADD Vx,Vy` (R156) -/
  | addReg (x y : RegNum)
  /-- `SUB Vx,Vy` (R157) -/
  | subReg (x y : RegNum)
  /-- `SHR Vx` (R158) -/
  | shr (x : RegNum)
  /-- `SUBN Vx,Vy` (R159) -/
  | subnReg (x y : RegNum)
  /-- `SHL Vx` (R160) -/
  | shl (x : RegNum)
  /-- `SNE Vx,Vy` (R136) -/
  | sneReg (x y : RegNum)
  /-- `LD I,nnn` (R180) -/
  | ldI (nnn : Addr12)
  /-- `JP V0,nnn` (R137) -/
  | jpV0 (nnn : Addr12)
  /-- `RND Vx,kk` (R161) -/
  | rnd (x : RegNum) (kk : Byte)
  /-- `DRW Vx,Vy,n` (R201) -/
  | drw (x y : RegNum) (n : Nibble)
  /-- `SKP Vx` (R220) -/
  | skp (x : RegNum)
  /-- `SKNP Vx` (R221) -/
  | sknp (x : RegNum)
  /-- `LD Vx,DT` (R222) -/
  | ldVxDt (x : RegNum)
  /-- `LD Vx,K` (R223) -/
  | ldVxK (x : RegNum)
  /-- `LD DT,Vx` (R224) -/
  | ldDtVx (x : RegNum)
  /-- `LD ST,Vx` (R225) -/
  | ldStVx (x : RegNum)
  /-- `ADD I,Vx` (R181) -/
  | addI (x : RegNum)
  /-- `LD F,Vx` (R182) -/
  | ldF (x : RegNum)
  /-- `LD B,Vx` (R183) -/
  | ldB (x : RegNum)
  /-- `LD [I],Vx` (R184) -/
  | stRegs (x : RegNum)
  /-- `LD Vx,[I]` (R185) -/
  | ldRegs (x : RegNum)
  deriving DecidableEq, Repr

/-- The digit of a 4-bit value as R96 writes it, `0` to `F`. -/
def hexDigit (d : BitVec 4) : String :=
  ["0", "1", "2", "3", "4", "5", "6", "7", "8", "9", "A", "B", "C", "D", "E", "F"].getD d.toNat ""

/-- A register operand, `V0` to `VF` (R96). -/
def asmReg (x : RegNum) : String := "V" ++ hexDigit x

/-- An 8-bit immediate in hexadecimal with `0x` (R96). -/
def asmByte (kk : Byte) : String := "0x" ++ hexDigit (kk.extractLsb' 4 4) ++ hexDigit (kk.extractLsb' 0 4)

/-- A 12-bit immediate in hexadecimal with `0x` (R96). -/
def asmAddr (nnn : Addr12) : String :=
  "0x" ++ hexDigit (nnn.extractLsb' 8 4) ++ hexDigit (nnn.extractLsb' 4 4) ++ hexDigit (nnn.extractLsb' 0 4)

/-- The assembler spelling of an instruction: the mnemonic, then the operands separated by commas (R96). -/
def Instr.asm : Instr → String
  | .cls => "CLS"
  | .ret => "RET"
  | .jp nnn => "JP " ++ asmAddr nnn
  | .call nnn => "CALL " ++ asmAddr nnn
  | .seImm x kk => "SE " ++ asmReg x ++ "," ++ asmByte kk
  | .sneImm x kk => "SNE " ++ asmReg x ++ "," ++ asmByte kk
  | .seReg x y => "SE " ++ asmReg x ++ "," ++ asmReg y
  | .ldImm x kk => "LD " ++ asmReg x ++ "," ++ asmByte kk
  | .addImm x kk => "ADD " ++ asmReg x ++ "," ++ asmByte kk
  | .ldReg x y => "LD " ++ asmReg x ++ "," ++ asmReg y
  | .orReg x y => "OR " ++ asmReg x ++ "," ++ asmReg y
  | .andReg x y => "AND " ++ asmReg x ++ "," ++ asmReg y
  | .xorReg x y => "XOR " ++ asmReg x ++ "," ++ asmReg y
  | .addReg x y => "ADD " ++ asmReg x ++ "," ++ asmReg y
  | .subReg x y => "SUB " ++ asmReg x ++ "," ++ asmReg y
  | .shr x => "SHR " ++ asmReg x
  | .subnReg x y => "SUBN " ++ asmReg x ++ "," ++ asmReg y
  | .shl x => "SHL " ++ asmReg x
  | .sneReg x y => "SNE " ++ asmReg x ++ "," ++ asmReg y
  | .ldI nnn => "LD I," ++ asmAddr nnn
  | .jpV0 nnn => "JP V0," ++ asmAddr nnn
  | .rnd x kk => "RND " ++ asmReg x ++ "," ++ asmByte kk
  | .drw x y n => "DRW " ++ asmReg x ++ "," ++ asmReg y ++ "," ++ "0x" ++ hexDigit n
  | .skp x => "SKP " ++ asmReg x
  | .sknp x => "SKNP " ++ asmReg x
  | .ldVxDt x => "LD " ++ asmReg x ++ ",DT"
  | .ldVxK x => "LD " ++ asmReg x ++ ",K"
  | .ldDtVx x => "LD DT," ++ asmReg x
  | .ldStVx x => "LD ST," ++ asmReg x
  | .addI x => "ADD I," ++ asmReg x
  | .ldF x => "LD F," ++ asmReg x
  | .ldB x => "LD B," ++ asmReg x
  | .stRegs x => "LD [I]," ++ asmReg x
  | .ldRegs x => "LD " ++ asmReg x ++ ",[I]"

end Sys2Proof
end

