-- ==== Sys2Proof/WellFormed.lean ====
section
/-! DEFINITION. What is well formed: an instruction's operands (30_encoding R83), an instruction word (R92, R95)
and a program image (70_reset_and_hazards R281). -/

namespace Sys2Proof

/-- The operand values of an instruction, each with the width of its field (R81, R82). -/
def Instr.operands : Instr → List (Nat × Nat)
  | .cls | .ret => []
  | .jp nnn | .call nnn | .ldI nnn | .jpV0 nnn => [(nnn.toNat, 12)]
  | .seImm x kk | .sneImm x kk | .ldImm x kk | .addImm x kk | .rnd x kk => [(x.toNat, 4), (kk.toNat, 8)]
  | .seReg x y | .sneReg x y | .ldReg x y | .orReg x y | .andReg x y | .xorReg x y | .addReg x y | .subReg x y
  | .subnReg x y => [(x.toNat, 4), (y.toNat, 4)]
  | .drw x y n => [(x.toNat, 4), (y.toNat, 4), (n.toNat, 4)]
  | .shr x | .shl x | .skp x | .sknp x | .ldVxDt x | .ldVxK x | .ldDtVx x | .ldStVx x | .addI x | .ldF x | .ldB x
  | .stRegs x | .ldRegs x => [(x.toNat, 4)]

/-- Every operand is a number its field can hold (R83). -/
def operandsFit (ops : List (Nat × Nat)) : Bool := ops.all fun o => decide (o.1 < 2 ^ o.2)

/-- An instruction is well formed when its operands fit. The operand types of `Instr` have exactly the widths of the
fields, so it holds of every term (`Instr.wellFormed_all` in Laws). -/
def Instr.wellFormed (i : Instr) : Bool := operandsFit i.operands

/-- A row of spec/opcode_table.json: a word selects it when its masked bits equal the pattern (R95). -/
structure OpcodeRow where
  mnemonic : String
  mask : Word
  pattern : Word
  deriving DecidableEq, Repr

/-- A word selects a row (R95). -/
def OpcodeRow.selects (r : OpcodeRow) (w : Word) : Bool := w &&& r.mask == r.pattern

/-- The row of each instruction (spec/opcode_table.json, `mnemonic`, `mask`, `match`). -/
def Instr.row : Instr → OpcodeRow
  | .cls => ⟨"CLS", 0xF00F, 0x0000⟩
  | .ret => ⟨"RET", 0xF00F, 0x000E⟩
  | .jp _ => ⟨"JP_nnn", 0xF000, 0x1000⟩
  | .call _ => ⟨"CALL_nnn", 0xF000, 0x2000⟩
  | .seImm _ _ => ⟨"SE_Vx_kk", 0xF000, 0x3000⟩
  | .sneImm _ _ => ⟨"SNE_Vx_kk", 0xF000, 0x4000⟩
  | .seReg _ _ => ⟨"SE_Vx_Vy", 0xF000, 0x5000⟩
  | .ldImm _ _ => ⟨"LD_Vx_kk", 0xF000, 0x6000⟩
  | .addImm _ _ => ⟨"ADD_Vx_kk", 0xF000, 0x7000⟩
  | .ldReg _ _ => ⟨"LD_Vx_Vy", 0xF00F, 0x8000⟩
  | .orReg _ _ => ⟨"OR_Vx_Vy", 0xF00F, 0x8001⟩
  | .andReg _ _ => ⟨"AND_Vx_Vy", 0xF00F, 0x8002⟩
  | .xorReg _ _ => ⟨"XOR_Vx_Vy", 0xF00F, 0x8003⟩
  | .addReg _ _ => ⟨"ADD_Vx_Vy", 0xF00F, 0x8004⟩
  | .subReg _ _ => ⟨"SUB_Vx_Vy", 0xF00F, 0x8005⟩
  | .shr _ => ⟨"SHR_Vx", 0xF00F, 0x8006⟩
  | .subnReg _ _ => ⟨"SUBN_Vx_Vy", 0xF00F, 0x8007⟩
  | .shl _ => ⟨"SHL_Vx", 0xF00F, 0x800E⟩
  | .sneReg _ _ => ⟨"SNE_Vx_Vy", 0xF000, 0x9000⟩
  | .ldI _ => ⟨"LD_I_nnn", 0xF000, 0xA000⟩
  | .jpV0 _ => ⟨"JP_V0_nnn", 0xF000, 0xB000⟩
  | .rnd _ _ => ⟨"RND_Vx_kk", 0xF000, 0xC000⟩
  | .drw _ _ _ => ⟨"DRW_Vx_Vy_n", 0xF000, 0xD000⟩
  | .skp _ => ⟨"SKP_Vx", 0xF00F, 0xE00E⟩
  | .sknp _ => ⟨"SKNP_Vx", 0xF00F, 0xE001⟩
  | .ldVxDt _ => ⟨"LD_Vx_DT", 0xF0FF, 0xF007⟩
  | .ldVxK _ => ⟨"LD_Vx_K", 0xF0FF, 0xF00A⟩
  | .ldDtVx _ => ⟨"LD_DT_Vx", 0xF0FF, 0xF015⟩
  | .ldStVx _ => ⟨"LD_ST_Vx", 0xF0FF, 0xF018⟩
  | .addI _ => ⟨"ADD_I_Vx", 0xF0FF, 0xF01E⟩
  | .ldF _ => ⟨"LD_F_Vx", 0xF0FF, 0xF029⟩
  | .ldB _ => ⟨"LD_B_Vx", 0xF0FF, 0xF033⟩
  | .stRegs _ => ⟨"LD__I__Vx", 0xF0FF, 0xF055⟩
  | .ldRegs _ => ⟨"LD_Vx__I", 0xF0FF, 0xF065⟩

/-- The 34 rows, in the table's order (R95, R98). -/
def opcodeTable : List OpcodeRow :=
  [Instr.cls, .ret, .jp 0, .call 0, .seImm 0 0, .sneImm 0 0, .seReg 0 0, .ldImm 0 0, .addImm 0 0].map Instr.row
  ++ [Instr.ldReg 0 0, .orReg 0 0, .andReg 0 0, .xorReg 0 0, .addReg 0 0, .subReg 0 0, .shr 0, .subnReg 0 0,
    .shl 0].map Instr.row
  ++ [Instr.sneReg 0 0, .ldI 0, .jpV0 0, .rnd 0 0, .drw 0 0 0, .skp 0, .sknp 0].map Instr.row
  ++ [Instr.ldVxDt 0, .ldVxK 0, .ldDtVx 0, .ldStVx 0, .addI 0, .ldF 0, .ldB 0, .stRegs 0, .ldRegs 0].map Instr.row

/-- A legal word: it selects some row of the table (R92, R95). -/
def wordLegal (w : Word) : Bool := opcodeTable.any fun r => r.selects w

/-- A program image `load` accepts: at most ROM_MAX bytes (R281). -/
def imageFits (bytes : List Byte) : Bool := decide (bytes.length ≤ Config.romMax)

end Sys2Proof
end

