-- ==== Sys2Proof/Decode.lean ====
section
/-! DEFINITION. The two-level dispatch of 30_encoding (R84 to R92) as a total decoder, and the encoder with the
standard spellings. Key derivation is normative (R85): top nibble, then low nibble (families 0x0, 0x8, 0xE) or low
byte (family 0xF). The numbering is the spec's decision D3 (log 7), the ignored bits are D4 (log 8). -/

namespace Sys2Proof

/-- `op = instr[15:12]`, the primary key (R81, R84). -/
def fieldOp (w : Word) : BitVec 4 := w.extractLsb' 12 4
/-- `x = instr[11:8]` (R81). -/
def fieldX (w : Word) : RegNum := w.extractLsb' 8 4
/-- `y = instr[7:4]` (R81). -/
def fieldY (w : Word) : RegNum := w.extractLsb' 4 4
/-- `n = instr[3:0]`, also the low-nibble key (R81, R85). -/
def fieldN (w : Word) : Nibble := w.extractLsb' 0 4
/-- `kk = instr[7:0]`, also the low-byte key (R81, R85; log 20). -/
def fieldKk (w : Word) : Byte := w.extractLsb' 0 8
/-- `nnn = instr[11:0]` (R81; log 20). -/
def fieldNnn (w : Word) : Addr12 := w.extractLsb' 0 12

/-- The secondary table of family 0x0, key low nibble (R87). -/
def family0 (w : Word) : Option Instr :=
  match (fieldN w).toNat with
  | 0x0 => some .cls
  | 0xE => some .ret
  | _ => none

/-- The secondary table of family 0x8, key low nibble (R88). -/
def family8 (w : Word) : Option Instr :=
  match (fieldN w).toNat with
  | 0x0 => some (.ldReg (fieldX w) (fieldY w))
  | 0x1 => some (.orReg (fieldX w) (fieldY w))
  | 0x2 => some (.andReg (fieldX w) (fieldY w))
  | 0x3 => some (.xorReg (fieldX w) (fieldY w))
  | 0x4 => some (.addReg (fieldX w) (fieldY w))
  | 0x5 => some (.subReg (fieldX w) (fieldY w))
  | 0x6 => some (.shr (fieldX w))
  | 0x7 => some (.subnReg (fieldX w) (fieldY w))
  | 0xE => some (.shl (fieldX w))
  | _ => none

/-- The secondary table of family 0xE, key low nibble (R89). -/
def familyE (w : Word) : Option Instr :=
  match (fieldN w).toNat with
  | 0xE => some (.skp (fieldX w))
  | 0x1 => some (.sknp (fieldX w))
  | _ => none

/-- The secondary table of family 0xF, key low byte (R90). -/
def familyF (w : Word) : Option Instr :=
  match (fieldKk w).toNat with
  | 0x07 => some (.ldVxDt (fieldX w))
  | 0x0A => some (.ldVxK (fieldX w))
  | 0x15 => some (.ldDtVx (fieldX w))
  | 0x18 => some (.ldStVx (fieldX w))
  | 0x1E => some (.addI (fieldX w))
  | 0x29 => some (.ldF (fieldX w))
  | 0x33 => some (.ldB (fieldX w))
  | 0x55 => some (.stRegs (fieldX w))
  | 0x65 => some (.ldRegs (fieldX w))
  | _ => none

/-- The primary table, key top nibble (R84, R86), with the re-dispatch of the four families (R85). `none` is an
unpopulated slot (R92). The last entry is 0xF. -/
def decodeWord (w : Word) : Option Instr :=
  match (fieldOp w).toNat with
  | 0x0 => family0 w
  | 0x1 => some (.jp (fieldNnn w))
  | 0x2 => some (.call (fieldNnn w))
  | 0x3 => some (.seImm (fieldX w) (fieldKk w))
  | 0x4 => some (.sneImm (fieldX w) (fieldKk w))
  | 0x5 => some (.seReg (fieldX w) (fieldY w))
  | 0x6 => some (.ldImm (fieldX w) (fieldKk w))
  | 0x7 => some (.addImm (fieldX w) (fieldKk w))
  | 0x8 => family8 w
  | 0x9 => some (.sneReg (fieldX w) (fieldY w))
  | 0xA => some (.ldI (fieldNnn w))
  | 0xB => some (.jpV0 (fieldNnn w))
  | 0xC => some (.rnd (fieldX w) (fieldKk w))
  | 0xD => some (.drw (fieldX w) (fieldY w) (fieldN w))
  | 0xE => familyE w
  | _ => familyF w

/-- Why bytes are no instruction. -/
inductive DecodeError where
  /-- An unpopulated secondary-table slot (R92): a step raises InvalidOpcode for it. -/
  | invalidOpcode (w : Word)
  /-- Fewer than the two bytes of an instruction (R80). No step meets it: a fetch reads two bytes or faults. -/
  | truncated (length : Nat)
  deriving DecidableEq, Repr

/-- The instruction word of two bytes: the first, at the lower address, is the high byte (R53, R80). -/
def wordOfBytes (hi lo : Byte) : Word := hi ++ lo

/-- The decoder over bytes: the instruction and the bytes after it, or why there is none (R80, R95). -/
def decode : List Byte → Except DecodeError (Instr × List Byte)
  | hi :: lo :: rest =>
    match decodeWord (wordOfBytes hi lo) with
    | some i => .ok (i, rest)
    | none => .error (.invalidOpcode (wordOfBytes hi lo))
  | [] => .error (.truncated 0)
  | [_] => .error (.truncated 1)

/-! The encoder, from the formats of R82. -/

/-- Format A: `op`, `nnn` (R82). -/
def wordA (op : BitVec 4) (nnn : Addr12) : Word := op ++ nnn
/-- Format XK: `op`, `x`, `kk` (R82). -/
def wordXK (op : BitVec 4) (x : RegNum) (kk : Byte) : Word := (op ++ x) ++ kk
/-- Formats XY and XYN: `op`, `x`, `y`, low nibble (R82). -/
def wordXYN (op : BitVec 4) (x y : RegNum) (n : Nibble) : Word := ((op ++ x) ++ y) ++ n

/-- The standard spelling of an instruction (R86 to R90, R91: ignored bits at their customary values; the ignored `y`
of SHR and SHL is written 0, as in the examples of R158 and R160). -/
def encodeWord : Instr → Word
  | .cls => 0x00E0
  | .ret => 0x00EE
  | .jp nnn => wordA 0x1 nnn
  | .call nnn => wordA 0x2 nnn
  | .seImm x kk => wordXK 0x3 x kk
  | .sneImm x kk => wordXK 0x4 x kk
  | .seReg x y => wordXYN 0x5 x y 0x0
  | .ldImm x kk => wordXK 0x6 x kk
  | .addImm x kk => wordXK 0x7 x kk
  | .ldReg x y => wordXYN 0x8 x y 0x0
  | .orReg x y => wordXYN 0x8 x y 0x1
  | .andReg x y => wordXYN 0x8 x y 0x2
  | .xorReg x y => wordXYN 0x8 x y 0x3
  | .addReg x y => wordXYN 0x8 x y 0x4
  | .subReg x y => wordXYN 0x8 x y 0x5
  | .shr x => wordXYN 0x8 x 0x0 0x6
  | .subnReg x y => wordXYN 0x8 x y 0x7
  | .shl x => wordXYN 0x8 x 0x0 0xE
  | .sneReg x y => wordXYN 0x9 x y 0x0
  | .ldI nnn => wordA 0xA nnn
  | .jpV0 nnn => wordA 0xB nnn
  | .rnd x kk => wordXK 0xC x kk
  | .drw x y n => wordXYN 0xD x y n
  | .skp x => wordXK 0xE x 0x9E
  | .sknp x => wordXK 0xE x 0xA1
  | .ldVxDt x => wordXK 0xF x 0x07
  | .ldVxK x => wordXK 0xF x 0x0A
  | .ldDtVx x => wordXK 0xF x 0x15
  | .ldStVx x => wordXK 0xF x 0x18
  | .addI x => wordXK 0xF x 0x1E
  | .ldF x => wordXK 0xF x 0x29
  | .ldB x => wordXK 0xF x 0x33
  | .stRegs x => wordXK 0xF x 0x55
  | .ldRegs x => wordXK 0xF x 0x65

/-- The high byte of a word, the one stored at the lower address (R53). -/
def highByte (w : Word) : Byte := w.extractLsb' 8 8
/-- The low byte of a word (R53). -/
def lowByte (w : Word) : Byte := w.extractLsb' 0 8

/-- The two bytes of an instruction as memory holds them, high byte first (R57, R80). -/
def encode (i : Instr) : List Byte := [highByte (encodeWord i), lowByte (encodeWord i)]

/-- The instruction word of the opcode table's bits: `nbits` bits of `w`, any further bit of the word 0. -/
def tableWord (nbits w : Nat) : Word := BitVec.ofNat 16 (w % 2 ^ nbits)

/-- The host's question about a row: the instruction this decoder reads from the word `w`, laid out as memory
holds it. -/
def decodeTableWord (nbits w : Nat) : Option Instr :=
  match decode [highByte (tableWord nbits w), lowByte (tableWord nbits w)] with
  | .ok (i, _) => some i
  | .error _ => none

end Sys2Proof
end

