-- ==== Sys2Proof/Machine/Font.lean ====
section
/-! DEFINITION. Parameter FONT at its default, and the bytes reset copies into memory (10_state R31, R35). -/

namespace Sys2Proof.Machine

/-- What an address the memory does not list reads as: 0, since reset zeroes memory before it copies FONT in (R35,
R54). -/
def Memory.background : Byte := 0

/-- The default of parameter FONT (R5, R31). PRESUMED (log 6): PIPOGA lists no font byte; R31's default is from general
knowledge. -/
def defaultFont : Font :=
  #v[#v[0xF0, 0x90, 0x90, 0x90, 0xF0], #v[0x20, 0x60, 0x20, 0x20, 0x70], #v[0xF0, 0x10, 0xF0, 0x80, 0xF0],
    #v[0xF0, 0x10, 0xF0, 0x10, 0xF0], #v[0x90, 0x90, 0xF0, 0x10, 0x10], #v[0xF0, 0x80, 0xF0, 0x10, 0xF0],
    #v[0xF0, 0x80, 0xF0, 0x90, 0xF0], #v[0xF0, 0x10, 0x20, 0x40, 0x40], #v[0xF0, 0x90, 0xF0, 0x90, 0xF0],
    #v[0xF0, 0x90, 0xF0, 0x10, 0xF0], #v[0xF0, 0x90, 0xF0, 0x90, 0x90], #v[0xE0, 0x90, 0xE0, 0x90, 0xE0],
    #v[0xF0, 0x80, 0x80, 0x80, 0xF0], #v[0xE0, 0x90, 0x90, 0x90, 0xE0], #v[0xF0, 0x80, 0xF0, 0x80, 0xF0],
    #v[0xF0, 0x80, 0xF0, 0x80, 0x80]]

/-- The 80 bytes of a font in address order: glyph d is bytes 5 * d to 5 * d + 4 (R31). -/
def fontBytes (font : Font) : List Byte := font.toList.flatMap Vector.toList

/-- The canonical listing of bytes that stand from an address on, with nothing else in memory. -/
def Memory.ofBytes (a : Nat) : List Byte → List Host.Cell
  | [] => []
  | b :: bs => if b = Memory.background then Memory.ofBytes (a + 1) bs else (a, b) :: Memory.ofBytes (a + 1) bs

/-- Memory after reset: zero, with FONT copied in from 0x050 (R31, R35). -/
def fontCells (font : Font) : List Host.Cell := Memory.ofBytes Config.fontBase (fontBytes font)

end Sys2Proof.Machine
end

