-- ==== Sys2Proof/Machine/State.lean ====
section
/-! DEFINITION. The state of CORE (10_state R20 to R37), the fault records (60_exceptions R240), the refusals
(40_step_cycle R120), and the state after reset (R35). -/

namespace Sys2Proof.Machine

/-- A fault record, the pair (kind, info) of R240. A fault is a behaviour of the machine (R263 a), so each is SAFE:
no claim can be made of a run past one (D5). -/
inductive Fault where
  /-- Raised by the dispatch of a step: the word's slot is unpopulated (R241). Safe: PIPOGA names it. -/
  | invalidOpcode (address : Word) (word : Word)
  /-- Raised by `load` only, never by a step: the image is longer than 3584 bytes (R242). Safe. -/
  | romTooLarge (actual maximum : Nat)
  /-- Raised by the fetch of a step when pc is above 0xFFE (R243, D8). Safe. -/
  | fetchOutOfRange (pc : Word)
  /-- Raised by DRW, LD B, LD [I], LD Vx,[I] for a data address above 0xFFF (R244, D7). Safe. -/
  | memOutOfRange (address : Nat)
  /-- Raised by CALL with sp = 16; the address of the CALL (R245, D9). Safe. -/
  | stackOverflow (address : Word)
  /-- Raised by RET with sp = 0; the address of the RET (R246, D10). Safe. -/
  | stackUnderflow (address : Word)
  /-- Raised by DRW for a set sprite bit off the grid; target column and row (R247, D12). Safe. -/
  | drawOutOfBounds (column row : Nat)
  /-- Raised by SKP and SKNP when V[x] is above 15; V[x] (R248, D14). Safe. -/
  | keyIndexOutOfRange (value : Byte)
  deriving DecidableEq, Repr

/-- Why a step has no meaning. -/
inductive Refusal where
  /-- An instruction whose arm in `exec` has no meaning yet; no arm is in that case now. Safe. -/
  | notModelled (mnemonic : String)
  /-- A step with the fault latch set: refused with the latched record, nothing changes (R120). Safe: the spec's own
  outcome. -/
  | alreadyFaulted (record : Fault)
  deriving DecidableEq, Repr

/-- Memory (R27, R50): the cells that are not 0, by address; `Memory.peek` reads it. -/
abbrev Memory := List Host.Cell

/-- The whole state. The keypad and the random byte are inputs of a step (R29, R11); the model keeps the values
presented to the NEXT step in `keys` and `rnd` (log 2). -/
structure State where
  /-- V0 to VF (R20). -/
  v : Vector Byte 16
  /-- I (R22). -/
  index : Word
  /-- pc (R23). -/
  pc : Word
  /-- sp, 0 to 16 (R25; log 14). -/
  sp : Fin 17
  /-- stack[0] to stack[15] (R24). -/
  stack : Vector Word 16
  /-- DT (R26). -/
  dt : Byte
  /-- ST (R26). -/
  st : Byte
  /-- mem[0x000] to mem[0xFFF] (R27). -/
  mem : Memory
  /-- The 32 rows of the framebuffer; bit c of row r is fb[r * 64 + c] (R28). -/
  fb : Vector (BitVec 64) 32
  /-- key[0] to key[15] of the next step, bit k is key[k] (R29; log 2). -/
  keys : BitVec 16
  /-- The random input of the next step (R11; log 2). -/
  rnd : Byte
  /-- The model's own counter, which indexes the free values the inputs take after a completed step (log 2). -/
  inputSeq : Nat
  /-- The fault latch (R32). -/
  faulted : Option Fault
  deriving DecidableEq, Repr

/-- The state after reset of a machine with the given FONT (R5, R35, R280). DESIGN CHOICE: the stack slots (log 4) and
the inputs, with the model's counter (log 3), are 0. -/
def State.resetWith (font : Font) : State where
  v := Vector.replicate 16 0
  index := 0
  pc := BitVec.ofNat 16 Config.progBase
  sp := 0
  stack := Vector.replicate 16 0
  dt := 0
  st := 0
  mem := fontCells font
  fb := Vector.replicate 32 0
  keys := 0
  rnd := 0
  inputSeq := 0
  faulted := none

/-- The state after reset with FONT at its default (R5, R31; log 6). -/
def State.reset : State := State.resetWith defaultFont

end Sys2Proof.Machine
end

