-- ==== Sys2Proof/Machine/Ops.lean ====
section
/-! DEFINITION. The named operations over registers, memory, stack, framebuffer, timers and inputs, and taking a
fault (R251). Every meaning is written over these. -/

namespace Sys2Proof.Machine

/-- One step's outcome. -/
abbrev Result := Host.Outcome State Fault Refusal

/-! ### One setter per piece of state -/

/-- `V[x] <- b` (R10). -/
def State.setV (s : State) (x : RegNum) (b : Byte) : State := { s with v := s.v.set x.toNat b x.isLt }
/-- `V[x]` (R10). -/
def State.getV (s : State) (x : RegNum) : Byte := s.v[x.toNat]'x.isLt
/-- `I <- w` (R10). -/
def State.setIndex (s : State) (w : Word) : State := { s with index := w }
/-- `pc <- w` (R10). -/
def State.setPc (s : State) (w : Word) : State := { s with pc := w }
/-- The stack and its pointer (R24, R25). -/
def State.setStack (s : State) (stack : Vector Word 16) (sp : Fin 17) : State := { s with stack := stack, sp := sp }
/-- `DT <- b` (R10). -/
def State.setDt (s : State) (b : Byte) : State := { s with dt := b }
/-- `ST <- b` (R10). -/
def State.setSt (s : State) (b : Byte) : State := { s with st := b }
/-- The memory (R27). -/
def State.setMem (s : State) (m : Memory) : State := { s with mem := m }
/-- The framebuffer (R28). -/
def State.setFb (s : State) (fb : Vector (BitVec 64) 32) : State := { s with fb := fb }
/-- The host presents the inputs of the next step: 16 key bits and a random byte (R29, R117, R260). -/
def State.present (s : State) (keys : BitVec 16) (rnd : Byte) : State := { s with keys := keys, rnd := rnd }
/-- The fault latch takes a record (R32, R251). -/
def State.latch (s : State) (f : Fault) : State := { s with faulted := some f }

/-- VF, register 15 (R21). -/
abbrev vf : RegNum := 0xF

/-! ### Faults -/

/-- `raise K(info)`, the one way to take a fault (R251): the step ends at once and answers the record; nothing later in
the pseudocode runs, the tick included. The latch takes the record and all other state is unspecified (R119): that is
`afterFault`, since this outcome carries no state (log 1). -/
def raise (f : Fault) : Result := .fault f

/-- The machine after a fault: the latch holds the record, everything else is whatever `u` is (R119, R251). There is no
return from a fault but reset (R252). -/
def afterFault (f : Fault) (u : State) : State := u.latch f

/-- A handler's end: its state, or the fault it raised (R251). -/
def finish : Except Fault State → Result
  | .ok s => .next s
  | .error f => raise f

/-- The `fault_code` of a record, by the table of R240 (log 16). 0 is no fault. -/
def Fault.code : Fault → Nat
  | .invalidOpcode _ _ => 1
  | .romTooLarge _ _ => 2
  | .fetchOutOfRange _ => 3
  | .memOutOfRange _ => 4
  | .stackOverflow _ => 5
  | .stackUnderflow _ => 6
  | .drawOutOfBounds _ _ => 7
  | .keyIndexOutOfRange _ => 8

/-- The `fault_code` output of the latch (R240): 0 when no fault is latched. -/
def State.faultCode (s : State) : Nat := (s.faulted.map Fault.code).getD 0

/-! ### Memory -/

/-- The byte at an address (R52): the listed one, else 0. -/
def Memory.peek : Memory → Nat → Byte
  | [], _ => Memory.background
  | (b, w) :: t, a => if b = a then w else Memory.peek t a

/-- List a byte at its place in the rising order. -/
def Memory.insert (a : Nat) (w : Byte) : Memory → Memory
  | [] => [(a, w)]
  | (b, u) :: t =>
    if a < b then (a, w) :: (b, u) :: t
    else if a = b then (a, w) :: t
    else (b, u) :: Memory.insert a w t

/-- Unlist an address. -/
def Memory.erase (a : Nat) : Memory → Memory
  | [] => []
  | (b, u) :: t => if a = b then Memory.erase a t else (b, u) :: Memory.erase a t

/-- `mem[a] <- w` (R52), in canonical form: a zero byte is not listed. -/
def Memory.poke (m : Memory) (a : Nat) (w : Byte) : Memory :=
  if w = Memory.background then Memory.erase a m else Memory.insert a w m

/-- The canonical form from an address on: rising addresses, inside memory, no zero byte. -/
def Memory.wfFrom (lo : Nat) : Memory → Bool
  | [] => true
  | (a, w) :: t =>
    decide (lo ≤ a) && decide (a < Config.memSize) && decide (w ≠ Memory.background) && Memory.wfFrom (a + 1) t

/-- The canonical form of memory. -/
def Memory.wf (m : Memory) : Bool := Memory.wfFrom 0 m

/-- `MemRead(addr, 1)` (R52): an address above 0xFFF raises MemOutOfRange, never reduced modulo 4096 (D7; log 13). -/
def memRead (s : State) (addr : Nat) : Except Fault Byte :=
  if addr < Config.memSize then .ok (s.mem.peek addr) else .error (.memOutOfRange addr)

/-- `MemWrite(addr, 1, v)` (R52). -/
def memWrite (s : State) (addr : Nat) (b : Byte) : Except Fault State :=
  if addr < Config.memSize then .ok (s.setMem (s.mem.poke addr b)) else .error (.memOutOfRange addr)

/-- One-byte writes at ascending addresses (R57), the first address out of range raised (D7). -/
def storeBytes (s : State) (addr : Nat) : List Byte → Except Fault State
  | [] => .ok s
  | b :: bs =>
    match memWrite s addr b with
    | .ok s' => storeBytes s' (addr + 1) bs
    | .error f => .error f

/-- `count` one-byte reads at ascending addresses into registers `i`, `i + 1` and so on (R57, R185). -/
def loadRegs (s : State) (addr i : Nat) : Nat → Except Fault State
  | 0 => .ok s
  | count + 1 =>
    match memRead s addr with
    | .ok b => loadRegs (s.setV (BitVec.ofNat 4 i) b) (addr + 1) (i + 1) count
    | .error f => .error f

/-- Bytes written into memory from an address on, with no check: the image of `load` (R281). -/
def Memory.pokes (m : Memory) (addr : Nat) : List Byte → Memory
  | [] => m
  | b :: bs => Memory.pokes (m.poke addr b) (addr + 1) bs

/-! ### The stack -/

/-- `stack[sp] <- pc; sp <- sp + 1`, StackOverflow at sp = 16 with the address of the CALL (R132, R245; log 14). -/
def pushReturn (s : State) : Except Fault State :=
  if h : s.sp.val < 16 then .ok (s.setStack (s.stack.set s.sp.val s.pc h) ⟨s.sp.val + 1, by omega⟩)
  else .error (.stackOverflow (s.pc - 2))

/-- `sp <- sp - 1; pc <- stack[sp]`, StackUnderflow at sp = 0 with the address of the RET (R130, R246; log 14). The slot
keeps its value. -/
def popReturn (s : State) : Except Fault State :=
  if h : 0 < s.sp.val then
    .ok ((s.setStack s.stack ⟨s.sp.val - 1, by omega⟩).setPc (s.stack[s.sp.val - 1]'(by omega)))
  else .error (.stackUnderflow (s.pc - 2))

/-! ### The framebuffer -/

/-- The pixel of a row and a column, `fb[row * 64 + col]`; off the grid there is none (R28). -/
def pixelAt (fb : Vector (BitVec 64) 32) (row col : Nat) : Bool :=
  if h : row < 32 then fb[row].getLsbD col else false

/-- The pixel in row `row` and column `col` (R28). -/
def State.pixel (s : State) (row col : Nat) : Bool := pixelAt s.fb row col

/-- The cell `fb[k]`, row-major (R28). -/
def State.cell (s : State) (k : Nat) : Bool := s.pixel (k / Config.fbW) (k % Config.fbW)

/-- The framebuffer and the collision flag while DRW runs (R201). -/
structure Canvas where
  fb : Vector (BitVec 64) 32
  hit : Bool
  deriving DecidableEq, Repr

/-- A cell of the grid, row and column. -/
abbrev GridCell := Fin 32 × Fin 64

/-- `if fb[k] = 1: VF <- 1; fb[k] <- fb[k] ^ 1` (R201). -/
def Canvas.flip (c : Canvas) (k : GridCell) : Canvas :=
  { fb := c.fb.set k.1.val (c.fb[k.1.val] ^^^ BitVec.twoPow 64 k.2.val)
    hit := c.hit || pixelAt c.fb k.1.val k.2.val }

/-- The cell of a grid position; off the grid the policy answers (R203, tested on coordinates). The default `fault`
raises DrawOutOfBounds; `clip` and `wrap` are the options R5 and R203 only name, and no step reaches them (DESIGN CHOICE,
log 11). -/
def targetCell (p : DrawEdgePolicy) (cx cy : Nat) : Except Fault (Option GridCell) :=
  if h : cy < 32 ∧ cx < 64 then .ok (some (⟨cy, h.1⟩, ⟨cx, h.2⟩))
  else
    match p with
    | .fault => .error (.drawOutOfBounds cx cy)
    | .clip => .ok none
    | .wrap => .ok (some (⟨cy % 32, Nat.mod_lt _ (by decide)⟩, ⟨cx % 64, Nat.mod_lt _ (by decide)⟩))

/-- A set sprite bit at a grid position (R201). -/
def Canvas.plot (c : Canvas) (cx cy : Nat) : Except Fault Canvas :=
  match targetCell Config.drawEdgePolicy cx cy with
  | .ok (some k) => .ok (c.flip k)
  | .ok none => .ok c
  | .error f => .error f

/-- Is the sprite bit of a column offset set: column 0 is bit 7 (R202, D13; log 12). -/
def spriteBit (b : Byte) (col : Nat) : Bool := b.getLsbD (7 - col)

/-- The column loop of R201 over one sprite byte. -/
def drawCols (b : Byte) (px cy : Nat) : List Nat → Canvas → Except Fault Canvas
  | [], c => .ok c
  | col :: cols, c =>
    if spriteBit b col then
      match c.plot (px + col) cy with
      | .ok c' => drawCols b px cy cols c'
      | .error f => .error f
    else drawCols b px cy cols c

/-- The row loop of R201: a row's byte is read, then drawn, before the next row is read (R250). -/
def drawRows (s : State) (px py : Nat) : List Nat → Canvas → Except Fault Canvas
  | [], c => .ok c
  | row :: rows, c =>
    match memRead s (s.index.toNat + row) with
    | .ok b =>
      match drawCols b px (py + row) (List.range 8) c with
      | .ok c' => drawRows s px py rows c'
      | .error f => .error f
    | .error f => .error f

/-! ### Timers and inputs -/

/-- One timer's tick: one less, floor at zero (R114). -/
def tickDown (t : Byte) : Byte := if t = 0 then 0 else t - 1

/-- The timer tick at the end of every step that returns ok (R114). -/
def State.tick (s : State) : State := (s.setDt (tickDown s.dt)).setSt (tickDown s.st)

/-- After a completed step the inputs of the next one are whatever the host presents: free values (R117, D2; log 2). -/
def State.nextInputs (s : State) : State :=
  { s with keys := Config.keysAt s.inputSeq, rnd := Config.rndAt s.inputSeq, inputSeq := s.inputSeq + 1 }

/-! ### Fetch -/

/-- `MemRead(pc, 2)`: big-endian, FetchOutOfRange above 0xFFE; no alignment (R53, R58, R111; log 13). -/
def fetch (s : State) : Except Fault Word :=
  if s.pc.toNat + 1 < Config.memSize then
    .ok (wordOfBytes (s.mem.peek s.pc.toNat) (s.mem.peek (s.pc.toNat + 1)))
  else .error (.fetchOutOfRange s.pc)

/-- `pc <- pc + 2`, before the handler runs (R111). -/
def State.advance (s : State) : State := s.setPc (s.pc + 2)

/-- The end of a step around the handler's outcome: the tick and the next inputs, on success only (R110, R119). -/
def endStep : Result → Result
  | .next s => .next s.tick.nextInputs
  | .fault f => .fault f
  | .refused r => .refused r

/-- The five actions of a step with the latch clear, and the refusal with it set (R110, R112, R120), for a given
`Execute`. -/
def cycle (execute : Instr → State → Result) (s : State) : Result :=
  match s.faulted with
  | some f => .refused (.alreadyFaulted f)
  | none =>
    match fetch s with
    | .error f => raise f
    | .ok w =>
      match decodeWord w with
      | none => raise (.invalidOpcode s.pc w)
      | some i => endStep (execute i s.advance)

/-- Where `placeWord` puts an instruction: pc, or PROG_BASE when nothing can be fetched at pc. -/
def placePc (s : State) : Word :=
  if s.pc.toNat + 1 < Config.memSize then s.pc else BitVec.ofNat 16 Config.progBase

/-- The state with a word, high byte first, where the next step fetches it, and the latch clear so that the step runs
(log 18). -/
def placeWord (s : State) (w : Word) : State :=
  { s with
    pc := placePc s
    mem := s.mem.pokes (placePc s).toNat [highByte w, lowByte w]
    faulted := none }

end Sys2Proof.Machine
end

