-- ==== Sys2Proof/Machine/Flags.lean ====
section
/-! DEFINITION. The values VF takes (10_state R21, 42_alu R162): each is exactly 0 or 1. -/

namespace Sys2Proof.Machine

/-- A condition as a flag value (R163). -/
def flag (c : Bool) : Byte := if c then 1 else 0

/-- Carry of ADD Vx,Vy: 1 if the sum exceeds 255 (R156). -/
def carryFlag (a b : Byte) : Byte := flag (decide (a.toNat + b.toNat > 255))

/-- Flag of SUB and SUBN: 1 if strictly greater, so 0 on equal operands (R157, R159). -/
def greaterFlag (a b : Byte) : Byte := flag (decide (a.toNat > b.toNat))

/-- Flag of SHR: the bit shifted out (R158). -/
def lowBitFlag (a : Byte) : Byte := flag (a.getLsbD 0)

/-- Flag of SHL: the bit shifted out (R160). -/
def highBitFlag (a : Byte) : Byte := flag (a.getLsbD 7)

end Sys2Proof.Machine
end

