-- ==== Sys2Proof/Machine/Operands.lean ====
section
/-! DEFINITION. Operand forms: immediates (R83), the addressing mode I + k (R186), glyph addresses (R182), decimal
digits (R183), skips and keys (R220 to R226). -/

namespace Sys2Proof.Machine

/-- `zext_16(nnn)` (R83). -/
def zextAddr (nnn : Addr12) : Word := nnn.setWidth 16

/-- `zext_16(V[x])` (R9). -/
def zextByte (b : Byte) : Word := b.setWidth 16

/-- The base address of the one data addressing mode, I as an integer (R186). -/
def baseAddr (s : State) : Nat := s.index.toNat

/-- `0x050 + 5 * zext_16(V[x])`: the whole byte, no nibble mask (R182). -/
def glyphAddr (b : Byte) : Word := BitVec.ofNat 16 Config.fontBase + 5 * zextByte b

/-- Hundreds, tens and ones of a byte (R183). -/
def decimalDigits (b : Byte) : List Byte :=
  [BitVec.ofNat 8 (b.toNat / 100), BitVec.ofNat 8 (b.toNat / 10 % 10), BitVec.ofNat 8 (b.toNat % 10)]

/-- The values of V0 to Vx, in order (R184). -/
def regsUpTo (s : State) (x : RegNum) : List Byte :=
  (List.range (x.toNat + 1)).map fun i => s.getV (BitVec.ofNat 4 i)

/-- `if c then pc <- pc + 2` (R133): a skip is exactly one instruction. -/
def skipIf (c : Bool) (s : State) : State := if c then s.setPc (s.pc + 2) else s

/-- `key[V[x]]`, or KeyIndexOutOfRange when V[x] is above 15 (R220, R226; log 15). -/
def selectedKey (s : State) (x : RegNum) : Except Fault Bool :=
  if (s.getV x).toNat < Config.nkeys then .ok (s.keys.getLsbD (s.getV x).toNat)
  else .error (.keyIndexOutOfRange (s.getV x))

/-- The least pressed key (R223). -/
def leastKey (keys : BitVec 16) : Option Nat := (List.range Config.nkeys).find? fun k => keys.getLsbD k

end Sys2Proof.Machine
end

