-- ==== Sys2Proof/Machine/Alu.lean ====
section
/-! DEFINITION. Register loads and the arithmetic unit (42_alu R150 to R163). Where a rule writes VF and then V[x],
the second statement reads the registers as the first left them (R12, R163, the spec's decision D15; log 9). -/

namespace Sys2Proof.Machine

/-- LD Vx,kk (R150). -/
def execLdImm (x : RegNum) (kk : Byte) (s : State) : Result := .next (s.setV x kk)

/-- ADD Vx,kk (R151): no flag. -/
def execAddImm (x : RegNum) (kk : Byte) (s : State) : Result := .next (s.setV x (s.getV x + kk))

/-- LD Vx,Vy (R152). -/
def execLdReg (x y : RegNum) (s : State) : Result := .next (s.setV x (s.getV y))

/-- OR Vx,Vy (R153): VF not written. -/
def execOrReg (x y : RegNum) (s : State) : Result := .next (s.setV x (s.getV x ||| s.getV y))

/-- AND Vx,Vy (R154): VF not written. -/
def execAndReg (x y : RegNum) (s : State) : Result := .next (s.setV x (s.getV x &&& s.getV y))

/-- XOR Vx,Vy (R155): VF not written. -/
def execXorReg (x y : RegNum) (s : State) : Result := .next (s.setV x (s.getV x ^^^ s.getV y))

/-- ADD Vx,Vy (R156): the sum is computed before any write. -/
def execAddReg (x y : RegNum) (s : State) : Result :=
  .next ((s.setV vf (carryFlag (s.getV x) (s.getV y))).setV x (s.getV x + s.getV y))

/-- The second statement of SUB, on the state after the flag write (R157, R163). -/
def subInto (x y : RegNum) (s : State) : State := s.setV x (s.getV x - s.getV y)

/-- SUB Vx,Vy (R157). -/
def execSubReg (x y : RegNum) (s : State) : Result :=
  .next (subInto x y (s.setV vf (greaterFlag (s.getV x) (s.getV y))))

/-- The second statement of SHR, on the state after the flag write (R158, R163). -/
def shrInto (x : RegNum) (s : State) : State := s.setV x (s.getV x >>> 1)

/-- SHR Vx (R158): V[x] itself is shifted. -/
def execShr (x : RegNum) (s : State) : Result := .next (shrInto x (s.setV vf (lowBitFlag (s.getV x))))

/-- The second statement of SUBN, on the state after the flag write (R159, R163). -/
def subnInto (x y : RegNum) (s : State) : State := s.setV x (s.getV y - s.getV x)

/-- SUBN Vx,Vy (R159). -/
def execSubnReg (x y : RegNum) (s : State) : Result :=
  .next (subnInto x y (s.setV vf (greaterFlag (s.getV y) (s.getV x))))

/-- The second statement of SHL, on the state after the flag write (R160, R163). -/
def shlInto (x : RegNum) (s : State) : State := s.setV x (s.getV x <<< 1)

/-- SHL Vx (R160): V[x] itself is shifted. -/
def execShl (x : RegNum) (s : State) : Result := .next (shlInto x (s.setV vf (highBitFlag (s.getV x))))

/-- RND Vx,kk (R161): the step's random input masked. -/
def execRnd (x : RegNum) (kk : Byte) (s : State) : Result := .next (s.setV x (s.rnd &&& kk))

end Sys2Proof.Machine
end

