-- ==== Sys2Proof/Machine/Control.lean ====
section
/-! DEFINITION. Control transfer (41_control_flow R130 to R138). Each meaning is the `Execute` of R110: pc is already
the address of the next instruction. -/

namespace Sys2Proof.Machine

/-- RET (R130). -/
def execRet (s : State) : Result := finish (popReturn s)

/-- JP nnn (R131). -/
def execJp (nnn : Addr12) (s : State) : Result := .next (s.setPc (zextAddr nnn))

/-- CALL nnn (R132). -/
def execCall (nnn : Addr12) (s : State) : Result :=
  match pushReturn s with
  | .ok s' => .next (s'.setPc (zextAddr nnn))
  | .error f => raise f

/-- SE Vx,kk (R133). -/
def execSeImm (x : RegNum) (kk : Byte) (s : State) : Result := .next (skipIf (s.getV x == kk) s)

/-- SNE Vx,kk (R134). -/
def execSneImm (x : RegNum) (kk : Byte) (s : State) : Result := .next (skipIf (s.getV x != kk) s)

/-- SE Vx,Vy (R135). -/
def execSeReg (x y : RegNum) (s : State) : Result := .next (skipIf (s.getV x == s.getV y) s)

/-- SNE Vx,Vy (R136). -/
def execSneReg (x y : RegNum) (s : State) : Result := .next (skipIf (s.getV x != s.getV y) s)

/-- JP V0,nnn (R137): always V0, the sum is not reduced modulo 4096. -/
def execJpV0 (nnn : Addr12) (s : State) : Result := .next (s.setPc (zextByte (s.getV 0) + zextAddr nnn))

end Sys2Proof.Machine
end

