-- ==== Sys2Proof/Machine/Display.lean ====
section
/-! DEFINITION. The framebuffer unit (44_display R200 to R204). -/

namespace Sys2Proof.Machine

/-- CLS (R200). -/
def execCls (s : State) : Result := .next (s.setFb (Vector.replicate 32 0))

/-- DRW Vx,Vy,n (R201): start position wrapped once, VF from the loop's collision flag, which starts at 0. The
coordinates are read before VF is written. -/
def execDrw (x y : RegNum) (n : Nibble) (s : State) : Result :=
  match drawRows s ((s.getV x).toNat % Config.fbW) ((s.getV y).toNat % Config.fbH) (List.range n.toNat)
    { fb := s.fb, hit := false } with
  | .ok c => .next ((s.setFb c.fb).setV vf (flag c.hit))
  | .error f => raise f

end Sys2Proof.Machine
end

