-- ==== Sys2Proof/Machine/IndexMemory.lean ====
section
/-! DEFINITION. The index register, loads and stores (43_index_memory R180 to R186). No instruction here but the three
that name it as destination changes I. -/

namespace Sys2Proof.Machine

/-- LD I,nnn (R180). -/
def execLdI (nnn : Addr12) (s : State) : Result := .next (s.setIndex (zextAddr nnn))

/-- ADD I,Vx (R181): modulo 65536, no flag (the spec's decision D11; log 10). -/
def execAddI (x : RegNum) (s : State) : Result := .next (s.setIndex (s.index + zextByte (s.getV x)))

/-- LD F,Vx (R182). -/
def execLdF (x : RegNum) (s : State) : Result := .next (s.setIndex (glyphAddr (s.getV x)))

/-- LD B,Vx (R183). -/
def execLdB (x : RegNum) (s : State) : Result := finish (storeBytes s (baseAddr s) (decimalDigits (s.getV x)))

/-- LD [I],Vx (R184). -/
def execStRegs (x : RegNum) (s : State) : Result := finish (storeBytes s (baseAddr s) (regsUpTo s x))

/-- LD Vx,[I] (R185). -/
def execLdRegs (x : RegNum) (s : State) : Result := finish (loadRegs s (baseAddr s) 0 (x.toNat + 1))

end Sys2Proof.Machine
end

