-- ==== Sys2Proof/Machine/KeypadTimers.lean ====
section
/-! DEFINITION. Keypad and timer instructions (45_keypad_timers R220 to R226). The tick follows the handler (R114). -/

namespace Sys2Proof.Machine

/-- SKP Vx (R220). -/
def execSkp (x : RegNum) (s : State) : Result :=
  match selectedKey s x with
  | .ok pressed => .next (skipIf pressed s)
  | .error f => raise f

/-- SKNP Vx (R221). -/
def execSknp (x : RegNum) (s : State) : Result :=
  match selectedKey s x with
  | .ok pressed => .next (skipIf (!pressed) s)
  | .error f => raise f

/-- LD Vx,DT (R222): DT before this step's tick. -/
def execLdVxDt (x : RegNum) (s : State) : Result := .next (s.setV x s.dt)

/-- LD Vx,K (R223): the least pressed key, or pc put back so that the next step fetches this instruction again. -/
def execLdVxK (x : RegNum) (s : State) : Result :=
  match leastKey s.keys with
  | some k => .next (s.setV x (BitVec.ofNat 8 k))
  | none => .next (s.setPc (s.pc - 2))

/-- LD DT,Vx (R224). -/
def execLdDtVx (x : RegNum) (s : State) : Result := .next (s.setDt (s.getV x))

/-- LD ST,Vx (R225). -/
def execLdStVx (x : RegNum) (s : State) : Result := .next (s.setSt (s.getV x))

end Sys2Proof.Machine
end

