-- ==== Sys2Proof/Machine/Step.lean ====
section
/-! DEFINITION. One step of CORE (40_step_cycle R110) and the host's way to place an instruction. -/

namespace Sys2Proof.Machine

/-- `step(keys, rnd)` on the inputs the state holds (R110 to R120). -/
def step (s : State) : Host.Outcome State Fault Refusal := cycle exec s

/-- The state with the table's word where the next step fetches (log 17, log 18). -/
def State.withFetchWord (s : State) (nbits w : Nat) : State := placeWord s (tableWord nbits w)

end Sys2Proof.Machine
end

