-- ==== Sys2Proof/Machine/Boundary.lean ====
section
/-! DEFINITION. The host boundary: the three operations `reset`, `load(bytes)`, `step(keys, rnd)` of 00_scope R7 as
moves of the whole machine (60_exceptions R260, 70_reset_and_hazards R280 to R283), and its outputs. -/

namespace Sys2Proof.Machine

/-- The outcome of `load` (R281): the state after it, or RomTooLarge with the machine as it was (R242). -/
inductive LoadOutcome where
  | ok (s : State)
  | failed (f : Fault)
  deriving DecidableEq, Repr

/-- `load(bytes)` (R281): at most 3584 bytes go to 0x200 onward and nothing else changes, the latch included; a longer
image fails with RomTooLarge (R242). Accepted between any two steps (the spec's decision D18; log 17). -/
def load (bytes : List Byte) (s : State) : LoadOutcome :=
  if imageFits bytes then .ok (s.setMem (s.mem.pokes Config.progBase bytes))
  else .failed (.romTooLarge bytes.length Config.romMax)

/-- The machine after a load: a failed one leaves it exactly as it was (R242). -/
def afterLoad (s : State) : LoadOutcome → State
  | .ok t => t
  | .failed _ => s

/-- `step(keys, rnd)` with the inputs as arguments (R7, R110). -/
def stepWith (keys : BitVec 16) (rnd : Byte) (s : State) : Result := step (s.present keys rnd)

/-- What the host may do between and with steps on a machine with the given FONT (R5), and every state each move may
leave (R260). A faulting step leaves the latch set and everything else unspecified (R119); a refused step and a failed load
leave the state as it was (R120, R242). -/
inductive HostMove (font : Font) : State → State → Prop where
  | reset (s : State) : HostMove font s (State.resetWith font)
  | load (s : State) (bytes : List Byte) : HostMove font s (afterLoad s (load bytes s))
  | step (s t : State) (keys : BitVec 16) (rnd : Byte) : stepWith keys rnd s = .next t → HostMove font s t
  | stepFault (s u : State) (keys : BitVec 16) (rnd : Byte) (f : Fault) :
      stepWith keys rnd s = .fault f → HostMove font s (afterFault f u)
  | stepRefused (s : State) (keys : BitVec 16) (rnd : Byte) (r : Refusal) :
      stepWith keys rnd s = .refused r → HostMove font s s

/-- The states a machine with the given FONT can be in after power-on: reset, then any moves of the host, loads and resets in
between included (R260, R281). The runs a claim about a program speaks of are those of Machine/Run.lean. -/
inductive Reachable (font : Font) : State → Prop where
  | reset : Reachable font (State.resetWith font)
  | move (s t : State) : Reachable font s → HostMove font s t → Reachable font t

/-- The framebuffer output: row by row, 64 cells a row (R28, R204). -/
def State.picture (s : State) : List (List Bool) :=
  (List.range Config.fbH).map fun row => (List.range Config.fbW).map fun col => s.pixel row col

/-- The sound output: tone on while ST is nonzero (R26, R260). -/
def State.toneOn (s : State) : Bool := s.st != 0

/-- The idle loop of R289 (2): no fault is latched, and the word at pc, pc at most 0xFFE, is a jump to pc itself. The
machine does not stop there; a claim may end there (`Run.EndsIdle`). -/
def State.idle (s : State) : Bool :=
  s.faulted.isNone &&
    match fetch s with
    | .ok w => w == encodeWord (.jp (s.pc.setWidth 12))
    | .error _ => false

end Sys2Proof.Machine
end

