-- ==== Sys2Proof/Machine/Run.lean ====
section
/-! DEFINITION. The runs a claim about a program speaks of: launch, the state after k steps, and the two ends of a run
(70_reset_and_hazards R282, R283, R288 to R290; log 25). -/

namespace Sys2Proof.Machine

/-- What the host presents to one step (R7, R117). -/
structure StepInput where
  keys : BitVec 16
  rnd : Byte
  deriving DecidableEq, Repr

/-- A run (R288), by what fixes it: the parameter FONT, the image of its one load, and the inputs the host chooses,
`inputs k` for step k + 1 (R290 (2), (4)). The policy for sprites off the grid is the default (R290 (3)). -/
structure Run where
  font : Font
  image : List Byte
  inputs : Nat → StepInput

/-- Reset, then one load (R282, R283, R290 (1)). A failed load starts no run. -/
def Run.launch (r : Run) : LoadOutcome := load r.image (State.resetWith r.font)

/-- The state after exactly k successful steps (R288, R289 (1)); none where the load failed or one of the k steps faulted,
for a faulted state is never in a run. Between steps the host only presents the inputs (R290 (5)). -/
def Run.after (r : Run) : Nat → Option State
  | 0 =>
    match r.launch with
    | .ok s => some s
    | .failed _ => none
  | k + 1 =>
    match r.after k with
    | none => none
    | some s =>
      match stepWith (r.inputs k).keys (r.inputs k).rnd s with
      | .next t => some t
      | .fault _ => none
      | .refused _ => none

/-- The end of a run by count: t is the state after exactly k successful steps (R289 (1)). -/
def Run.EndsByCount (r : Run) (k : Nat) (t : State) : Prop := r.after k = some t

/-- The end of a run by idle loop: t, after k steps, is the first state of the run in an idle loop (R289 (2)). -/
def Run.EndsIdle (r : Run) (k : Nat) (t : State) : Prop :=
  r.after k = some t ∧ t.idle = true ∧ ∀ j < k, ∀ s, r.after j = some s → s.idle = false

end Sys2Proof.Machine
end

