-- ==== Sys2Proof/Safety.lean ====
section
/-! DEFINITION. The terms claims use: what an instruction may write (10_state R36), the invariant of R37, and when a
sprite stays on the grid (44_display R201, R203). -/

namespace Sys2Proof.Machine

/-- A set of pieces of state. `stack` stands for the slots and sp together. -/
structure Writes where
  regs : RegNum → Bool := fun _ => false
  mem : Nat → Bool := fun _ => false
  index : Bool := false
  pc : Bool := false
  stack : Bool := false
  dt : Bool := false
  st : Bool := false
  fb : Bool := false

/-- Nothing outside `w` differs between two states: every register, every byte of memory (through the model's read of
one byte), I, pc, the stack, the timers, the framebuffer. The inputs, the model's counter and the latch are in no such set:
no instruction writes them (R29, R32). -/
def Frame (w : Writes) (s t : State) : Prop :=
  (∀ r, w.regs r = false → t.getV r = s.getV r) ∧
  (∀ a, w.mem a = false → t.mem.peek a = s.mem.peek a) ∧
  (w.index = false → t.index = s.index) ∧
  (w.pc = false → t.pc = s.pc) ∧
  (w.stack = false → t.sp = s.sp ∧ t.stack = s.stack) ∧
  (w.dt = false → t.dt = s.dt) ∧
  (w.st = false → t.st = s.st) ∧
  (w.fb = false → t.fb = s.fb) ∧
  t.keys = s.keys ∧ t.rnd = s.rnd ∧ t.inputSeq = s.inputSeq ∧ t.faulted = s.faulted

/-- One register. -/
def oneReg (x : RegNum) : RegNum → Bool := fun r => r == x

/-- A register and VF. -/
def regAndFlag (x : RegNum) : RegNum → Bool := fun r => r == x || r == vf

/-- `count` bytes from an address on. -/
def bytesFrom (a count : Nat) : Nat → Bool := fun b => decide (a ≤ b ∧ b < a + count)

end Sys2Proof.Machine

namespace Sys2Proof

open Sys2Proof.Machine

/-- The table of R36: what each instruction may write, the fetch's pc and the tick's timers apart. -/
def Instr.writes (i : Instr) (s : State) : Writes :=
  match i with
  | .cls => { fb := true }
  | .ret => { pc := true, stack := true }
  | .jp _ => { pc := true }
  | .call _ => { pc := true, stack := true }
  | .seImm _ _ => { pc := true }
  | .sneImm _ _ => { pc := true }
  | .seReg _ _ => { pc := true }
  | .ldImm x _ => { regs := oneReg x }
  | .addImm x _ => { regs := oneReg x }
  | .ldReg x _ => { regs := oneReg x }
  | .orReg x _ => { regs := oneReg x }
  | .andReg x _ => { regs := oneReg x }
  | .xorReg x _ => { regs := oneReg x }
  | .addReg x _ => { regs := regAndFlag x }
  | .subReg x _ => { regs := regAndFlag x }
  | .shr x => { regs := regAndFlag x }
  | .subnReg x _ => { regs := regAndFlag x }
  | .shl x => { regs := regAndFlag x }
  | .sneReg _ _ => { pc := true }
  | .ldI _ => { index := true }
  | .jpV0 _ => { pc := true }
  | .rnd x _ => { regs := oneReg x }
  | .drw _ _ _ => { regs := oneReg vf, fb := true }
  | .skp _ => { pc := true }
  | .sknp _ => { pc := true }
  | .ldVxDt x => { regs := oneReg x }
  | .ldVxK x => { regs := oneReg x, pc := true }
  | .ldDtVx _ => { dt := true }
  | .ldStVx _ => { st := true }
  | .addI _ => { index := true }
  | .ldF _ => { index := true }
  | .ldB _ => { mem := bytesFrom (baseAddr s) 3 }
  | .stRegs x => { mem := bytesFrom (baseAddr s) (x.toNat + 1) }
  | .ldRegs x => { regs := fun r => decide (r.toNat ≤ x.toNat) }

/-- The instructions that read the keys: SKP, SKNP and LD Vx,K (R117). -/
def Instr.readsKeys : Instr → Bool
  | .skp _ | .sknp _ | .ldVxK _ => true
  | _ => false

/-- The instruction that reads the random byte: RND (R117). -/
def Instr.readsRnd : Instr → Bool
  | .rnd _ _ => true
  | _ => false

/-- The arithmetic instructions: the arithmetic unit's (42_alu) and the two that add into I (R162). -/
def Instr.isArithmetic : Instr → Bool
  | .addImm _ _ | .orReg _ _ | .andReg _ _ | .xorReg _ _ | .addReg _ _ | .subReg _ _ | .shr _ | .subnReg _ _ | .shl _
  | .rnd _ _ | .addI _ | .ldF _ => true
  | _ => false

/-- The instructions that may leave pc other than at the next instruction: RET, JP, CALL, the six skips, JP V0 and
LD Vx,K (R23). -/
def Instr.mayTransfer : Instr → Bool
  | .ret | .jp _ | .call _ | .seImm _ _ | .sneImm _ _ | .seReg _ _ | .sneReg _ _ | .jpV0 _ | .skp _ | .sknp _
  | .ldVxK _ => true
  | _ => false

end Sys2Proof

namespace Sys2Proof.Machine

/-- An outcome with its next state changed. -/
def mapNext (f : State → State) : Result → Result
  | .next s => .next (f s)
  | .fault r => .fault r
  | .refused r => .refused r

/-- The invariant of the machine (R37, R130): pc at most 0x10FE, each live return address between 0x002 and 0x1000, and
memory in canonical form. That sp is at most 16 is its type. -/
def Inv (s : State) : Prop :=
  s.pc.toNat ≤ 0x10FE ∧
  (∀ k (h : k < s.sp.val), 2 ≤ (s.stack[k]'(by omega)).toNat ∧ (s.stack[k]'(by omega)).toNat ≤ 0x1000) ∧
  Memory.wf s.mem = true

/-- DRW's start column, `V[x] mod 64` (R201). -/
def startCol (s : State) (x : RegNum) : Nat := (s.getV x).toNat % 64

/-- DRW's start row, `V[y] mod 32` (R201). -/
def startRow (s : State) (y : RegNum) : Nat := (s.getV y).toNat % 32

/-- The byte of sprite row `r` (R201). -/
def spriteByte (s : State) (r : Nat) : Byte := s.mem.peek (baseAddr s + r)

/-- Sprite row `r` can be drawn: its byte is in memory and its set bits are on the grid (R201, R203). -/
def RowOnGrid (s : State) (x y : RegNum) (r : Nat) : Prop :=
  baseAddr s + r ≤ 0xFFF ∧
  ∀ c < 8, spriteBit (spriteByte s r) c = true → startCol s x + c ≤ 63 ∧ startRow s y + r ≤ 31

/-- The sprite draws a bit on the cell of a row and a column (R201, R202). -/
def spriteOn (s : State) (x y : RegNum) (n : Nibble) (row col : Nat) : Bool :=
  decide (startRow s y ≤ row ∧ row < startRow s y + n.toNat ∧ startCol s x ≤ col ∧ col < startCol s x + 8) &&
  spriteBit (spriteByte s (row - startRow s y)) (col - startCol s x)

end Sys2Proof.Machine
end

