-- ==== Sys2Proof/Certificates/Slice0/Obligations.lean ====
section
/-! DEFINITION. The statements for the provers, from the numbered rules of spec/. A statement about an instruction is about
`exec`, the `Execute` of R110: pc is already advanced when it starts and the tick follows it. -/

open Sys2Proof Sys2Proof.Machine

/-! ### Encoding -/

/-- R80 to R90: the bytes of every instruction decode to it, whatever follows. The numbering is the spec's decision D3
(log 7), the places of kk, nnn and n are its inference (G5, log 20). -/
def Obligations.DecodeOfEncodeIsInstr : Prop :=
  ∀ (i : Instr) (rest : List Byte), decode (encode i ++ rest) = .ok (i, rest)

/-- R95: a word decodes to the instruction whose row it selects, that row alone is selected, and a word no row selects is
invalid. -/
def Obligations.DecodeAgreesWithOpcodeTable : Prop :=
  ∀ w : Word,
    (∀ i, decodeWord w = some i →
      i.row ∈ opcodeTable ∧ ∀ r ∈ opcodeTable, (r.selects w = true ↔ r = i.row)) ∧
    (decodeWord w = none ↔ wordLegal w = false)

/-- R92: exactly which words are invalid. -/
def Obligations.InvalidWordsAreR92 : Prop :=
  ∀ w : Word, decodeWord w = none ↔
    (w.extractLsb' 12 4 = 0x0 ∧ w.extractLsb' 0 4 ∉ [0x0, 0xE]) ∨
    (w.extractLsb' 12 4 = 0x8 ∧ w.extractLsb' 0 4 ∈ [0x8, 0x9, 0xA, 0xB, 0xC, 0xD, 0xF]) ∨
    (w.extractLsb' 12 4 = 0xE ∧ w.extractLsb' 0 4 ∉ [0x1, 0xE]) ∨
    (w.extractLsb' 12 4 = 0xF ∧
      w.extractLsb' 0 8 ∉ [0x07, 0x0A, 0x15, 0x18, 0x1E, 0x29, 0x33, 0x55, 0x65])

/-- R91 (the spec's decision D4, log 8): the bits outside the keys and the operands select nothing. -/
def Obligations.IgnoredBitsSelectNothing : Prop :=
  ∀ w : Word,
    (w &&& 0xF00F = 0x0000 → decodeWord w = some .cls) ∧
    (w &&& 0xF00F = 0x000E → decodeWord w = some .ret) ∧
    (w &&& 0xF000 = 0x5000 → decodeWord w = some (.seReg (w.extractLsb' 8 4) (w.extractLsb' 4 4))) ∧
    (w &&& 0xF000 = 0x9000 → decodeWord w = some (.sneReg (w.extractLsb' 8 4) (w.extractLsb' 4 4))) ∧
    (w &&& 0xF00F = 0xE00E → decodeWord w = some (.skp (w.extractLsb' 8 4))) ∧
    (w &&& 0xF00F = 0xE001 → decodeWord w = some (.sknp (w.extractLsb' 8 4))) ∧
    (w &&& 0xF00F = 0x8006 → decodeWord w = some (.shr (w.extractLsb' 8 4))) ∧
    (w &&& 0xF00F = 0x800E → decodeWord w = some (.shl (w.extractLsb' 8 4)))

/-- The operand fields each key gives its instruction. The numbering of R86, R88 and R90 is the spec's decision D3 (log 7);
that kk, nnn and n stand at instr[7:0], instr[11:0] and instr[3:0] is its inference (R8, G5), log 20. -/
def Obligations.KeysGiveOperandFields : Prop :=
  ∀ w : Word,
    (w &&& 0xF000 = 0x1000 → decodeWord w = some (.jp (w.extractLsb' 0 12))) ∧
    (w &&& 0xF000 = 0x2000 → decodeWord w = some (.call (w.extractLsb' 0 12))) ∧
    (w &&& 0xF000 = 0x4000 → decodeWord w = some (.sneImm (w.extractLsb' 8 4) (w.extractLsb' 0 8))) ∧
    (w &&& 0xF000 = 0x7000 → decodeWord w = some (.addImm (w.extractLsb' 8 4) (w.extractLsb' 0 8))) ∧
    (w &&& 0xF000 = 0xA000 → decodeWord w = some (.ldI (w.extractLsb' 0 12))) ∧
    (w &&& 0xF000 = 0xB000 → decodeWord w = some (.jpV0 (w.extractLsb' 0 12))) ∧
    (w &&& 0xF000 = 0xC000 → decodeWord w = some (.rnd (w.extractLsb' 8 4) (w.extractLsb' 0 8))) ∧
    (w &&& 0xF000 = 0xD000 →
      decodeWord w = some (.drw (w.extractLsb' 8 4) (w.extractLsb' 4 4) (w.extractLsb' 0 4))) ∧
    (w &&& 0xF00F = 0x8000 → decodeWord w = some (.ldReg (w.extractLsb' 8 4) (w.extractLsb' 4 4))) ∧
    (w &&& 0xF00F = 0x8001 → decodeWord w = some (.orReg (w.extractLsb' 8 4) (w.extractLsb' 4 4))) ∧
    (w &&& 0xF00F = 0x8002 → decodeWord w = some (.andReg (w.extractLsb' 8 4) (w.extractLsb' 4 4))) ∧
    (w &&& 0xF00F = 0x8003 → decodeWord w = some (.xorReg (w.extractLsb' 8 4) (w.extractLsb' 4 4))) ∧
    (w &&& 0xF00F = 0x8004 → decodeWord w = some (.addReg (w.extractLsb' 8 4) (w.extractLsb' 4 4))) ∧
    (w &&& 0xF00F = 0x8005 → decodeWord w = some (.subReg (w.extractLsb' 8 4) (w.extractLsb' 4 4))) ∧
    (w &&& 0xF00F = 0x8007 → decodeWord w = some (.subnReg (w.extractLsb' 8 4) (w.extractLsb' 4 4))) ∧
    (w &&& 0xF0FF = 0xF007 → decodeWord w = some (.ldVxDt (w.extractLsb' 8 4))) ∧
    (w &&& 0xF0FF = 0xF00A → decodeWord w = some (.ldVxK (w.extractLsb' 8 4))) ∧
    (w &&& 0xF0FF = 0xF015 → decodeWord w = some (.ldDtVx (w.extractLsb' 8 4))) ∧
    (w &&& 0xF0FF = 0xF018 → decodeWord w = some (.ldStVx (w.extractLsb' 8 4))) ∧
    (w &&& 0xF0FF = 0xF01E → decodeWord w = some (.addI (w.extractLsb' 8 4))) ∧
    (w &&& 0xF0FF = 0xF029 → decodeWord w = some (.ldF (w.extractLsb' 8 4))) ∧
    (w &&& 0xF0FF = 0xF033 → decodeWord w = some (.ldB (w.extractLsb' 8 4))) ∧
    (w &&& 0xF0FF = 0xF055 → decodeWord w = some (.stRegs (w.extractLsb' 8 4))) ∧
    (w &&& 0xF0FF = 0xF065 → decodeWord w = some (.ldRegs (w.extractLsb' 8 4)))

/-- Sample words, bytes as memory holds them. PIPOGA shows 6005, 3005, 8014, 8015 and Fx33 (E3 to E5, E7) and the low bytes
behind F105 (E11); 1234, D015, E39E, A400 and 00E0 are unshown and rest on the numbering decision D3 (log 7). The places of
kk, nnn and n are log 20. -/
def Obligations.SampleWordsDecode : Prop :=
  decode [0x60, 0x05] = .ok (.ldImm 0 5, []) ∧ decode [0x30, 0x05] = .ok (.seImm 0 5, []) ∧
  decode [0x80, 0x14] = .ok (.addReg 0 1, []) ∧ decode [0x80, 0x15] = .ok (.subReg 0 1, []) ∧
  decode [0xF3, 0x33] = .ok (.ldB 3, []) ∧ decode [0x12, 0x34] = .ok (.jp 0x234, []) ∧
  decode [0xD0, 0x15] = .ok (.drw 0 1 5, []) ∧ decode [0xE3, 0x9E] = .ok (.skp 3, []) ∧
  decode [0xA4, 0x00] = .ok (.ldI 0x400, []) ∧ decode [0x00, 0xE0] = .ok (.cls, []) ∧
  decode [0xF1, 0x05] = .error (.invalidOpcode 0xF105)

/-! ### The step -/

/-- R110, R111, R113, R114, R119: with the latch clear and two bytes at pc that decode to a well-formed instruction, the
step is that instruction's `exec` on the state with pc advanced by 2; a next state then has both timers ticked and the next
inputs (free values, log 2); a fault stays what it is, and no handler refuses. -/
def Obligations.StepRunsDecodedInstruction : Prop :=
  ∀ (s : State) (i : Instr), s.faulted = none → s.pc.toNat ≤ 0xFFE →
    decode [s.mem.peek s.pc.toNat, s.mem.peek (s.pc.toNat + 1)] = .ok (i, []) → i.wellFormed = true →
    (∀ h, exec i { s with pc := s.pc + 2 } = .next h →
      step s = .next { h with
        dt := if h.dt = 0 then 0 else h.dt - 1
        st := if h.st = 0 then 0 else h.st - 1
        keys := Config.keysAt h.inputSeq
        rnd := Config.rndAt h.inputSeq
        inputSeq := h.inputSeq + 1 }) ∧
    (∀ f, exec i { s with pc := s.pc + 2 } = .fault f → step s = .fault f) ∧
    (∀ r, exec i { s with pc := s.pc + 2 } ≠ .refused r)

/-- R53, R111, R243 (decision D8, log 13): when a step raises FetchOutOfRange, and with what. -/
def Obligations.FetchFaultsAboveFFE : Prop :=
  ∀ (s : State) (p : Word), s.faulted = none →
    (step s = .fault (.fetchOutOfRange p) ↔ 0xFFE < s.pc.toNat ∧ p = s.pc)

/-- R112, R241, R250: when a step raises InvalidOpcode, with the address of the fetch and the big-endian word (the record
is decision D6). -/
def Obligations.InvalidOpcodeNamesWord : Prop :=
  ∀ (s : State) (a w : Word), s.faulted = none →
    (step s = .fault (.invalidOpcode a w) ↔
      s.pc.toNat ≤ 0xFFE ∧ a = s.pc ∧
      w.toNat = (s.mem.peek s.pc.toNat).toNat * 256 + (s.mem.peek (s.pc.toNat + 1)).toNat ∧ decodeWord w = none)

/-- R120, R263 (decision D5): a step is refused exactly when the latch is set, with the latched record. In particular no
instruction is ever refused. -/
def Obligations.RefusedExactlyWhenLatched : Prop :=
  ∀ (s : State) (r : Refusal), step s = .refused r ↔ ∃ f, s.faulted = some f ∧ r = .alreadyFaulted f

/-- R251, R252, R281 (decision D5, log 1): after a fault, whatever the rest of the state is, every step is refused with the
record for any inputs, no load clears the latch, and reset does. -/
def Obligations.FaultIsFinalUntilReset : Prop :=
  ∀ (s u : State) (f : Fault), step s = .fault f →
    (∀ keys rnd, stepWith keys rnd (afterFault f u) = .refused (.alreadyFaulted f)) ∧
    (∀ bytes t, load bytes (afterFault f u) = .ok t → t.faulted = some f) ∧
    ∀ font, HostMove font s (afterFault f u) ∧ HostMove font (afterFault f u) (State.resetWith font) ∧
      (State.resetWith font).faulted = none

/-- R114: in every step that answers a next state, after the handler each timer on its own goes down by one if it is above
0 and stays 0 otherwise; the handler is the fetched instruction's, whichever it is. -/
def Obligations.TimersTickAfterHandler : Prop :=
  ∀ s t : State, step s = .next t →
    ∃ i h, decode [s.mem.peek s.pc.toNat, s.mem.peek (s.pc.toNat + 1)] = .ok (i, []) ∧
      exec i { s with pc := s.pc + 2 } = .next h ∧
      t.dt.toNat = h.dt.toNat - 1 ∧ t.st.toNat = h.st.toNat - 1

/-- R115: a timer written in a step has lost one count at its end, any other timer counts down from where it was. -/
def Obligations.WrittenTimerLosesOneCount : Prop :=
  ∀ (s t : State) (i : Instr), step s = .next t →
    decode [s.mem.peek s.pc.toNat, s.mem.peek (s.pc.toNat + 1)] = .ok (i, []) →
    t.dt.toNat = (match i with | .ldDtVx x => (s.getV x).toNat | _ => s.dt.toNat) - 1 ∧
    t.st.toNat = (match i with | .ldStVx x => (s.getV x).toNat | _ => s.st.toNat) - 1

/-- R111, R23: after a step of an instruction that is no transfer pc has moved by exactly 2. -/
def Obligations.SequentialStepAddsTwo : Prop :=
  ∀ (s t : State) (i : Instr), step s = .next t →
    decode [s.mem.peek s.pc.toNat, s.mem.peek (s.pc.toNat + 1)] = .ok (i, []) → i.mayTransfer = false →
    t.pc.toNat = s.pc.toNat + 2

/-- R117 (decision D2, log 2): only SKP, SKNP and LD Vx,K depend on the keys, only RND on the random byte. -/
def Obligations.InputsReadOnlyByNamed : Prop :=
  ∀ (i : Instr) (s : State) (keys : BitVec 16) (rnd : Byte),
    (i.readsKeys = false →
      exec i (s.present keys s.rnd) = mapNext (fun t => t.present keys t.rnd) (exec i s)) ∧
    (i.readsRnd = false →
      exec i (s.present s.keys rnd) = mapNext (fun t => t.present t.keys rnd) (exec i s))

/-! ### Invariants -/

/-- R37, R23, R130: the invariant is kept by every step, from every state that has it. Its canonical memory is the model's
choice of a representation (log 21). -/
def Obligations.StepKeepsMachineBounds : Prop :=
  ∀ s t : State, Inv s → step s = .next t → Inv t

/-- R35, R37: the reset state has the invariant, with FONT at its default and with any other (canonical memory: log 21). -/
def Obligations.ResetMeetsMachineBounds : Prop := Inv State.reset ∧ ∀ font, Inv (State.resetWith font)

/-- R37: in every state a machine of any FONT can be in with the latch clear, after any moves of the host, sp is at most 16,
pc at most 0x10FE and memory in canonical form (the model's representation, log 21), so that every listed byte is inside
memory. Its step lemma is StepKeepsMachineBounds. -/
def Obligations.ReachableStatesInBounds : Prop :=
  ∀ (font : Font) (s : State), Reachable font s → s.faulted = none →
    s.sp.val ≤ 16 ∧ s.pc.toNat ≤ 0x10FE ∧ Memory.wf s.mem = true ∧ ∀ c ∈ s.mem, c.1 ≤ 0xFFF

/-! ### Frames and faults -/

/-- R36, R20 to R28: what each of the 34 instructions leaves unchanged. `Instr.writes` is R36's table, and the addresses of
a store are those its meaning uses, `baseAddr` and the count. -/
def Obligations.InstructionFrame : Prop :=
  ∀ (i : Instr) (s t : State), exec i s = .next t → Frame (i.writes s) s t

/-- R240, R250: which instruction raises which fault, when, and with what record; no handler raises any other. D7, D9, D10,
D12, D14 are the spec's decisions (logs 11, 13, 14, 15). -/
def Obligations.FaultsComeFromTheirInstructions : Prop :=
  ∀ (i : Instr) (s : State) (f : Fault), exec i s = .fault f →
    match f with
    | .memOutOfRange a => 0xFFF < a ∧
        ((∃ x y n, i = .drw x y n) ∨ (∃ x, i = .ldB x) ∨ (∃ x, i = .stRegs x) ∨ ∃ x, i = .ldRegs x)
    | .stackOverflow a => (∃ nnn, i = .call nnn) ∧ s.sp.val = 16 ∧ a = s.pc - 2
    | .stackUnderflow a => i = .ret ∧ s.sp.val = 0 ∧ a = s.pc - 2
    | .drawOutOfBounds cx cy => (∃ x y n, i = .drw x y n) ∧ (63 < cx ∨ 31 < cy)
    | .keyIndexOutOfRange b => 15 < b.toNat ∧ ∃ x, (i = .skp x ∨ i = .sknp x) ∧ b = s.getV x
    | .invalidOpcode _ _ => False
    | .romTooLarge _ _ => False
    | .fetchOutOfRange _ => False

/-! ### Register loads and the arithmetic unit -/

/-- R150: the words that select LD Vx,kk, and its effect. That kk is instr[7:0] is the spec's inference (R8, G5), log 20. -/
def Obligations.LdImmLoadsImmediate : Prop :=
  (∀ w : Word, w &&& 0xF000 = 0x6000 → decodeWord w = some (.ldImm (w.extractLsb' 8 4) (w.extractLsb' 0 8))) ∧
  ∀ (x : RegNum) (kk : Byte) (s : State), ∃ t, exec (.ldImm x kk) s = .next t ∧ t.getV x = kk ∧
    Frame { regs := oneReg x } s t

/-- R151: ADD Vx,kk wraps and sets no flag. -/
def Obligations.AddImmWrapsNoFlag : Prop :=
  ∀ (x : RegNum) (kk : Byte) (s : State), ∃ t, exec (.addImm x kk) s = .next t ∧
    (t.getV x).toNat = ((s.getV x).toNat + kk.toNat) % 256 ∧ Frame { regs := oneReg x } s t

/-- R152 to R155: LD Vx,Vy copies; OR, AND, XOR work bit by bit and leave VF alone unless it is x. -/
def Obligations.CopyAndLogic : Prop :=
  ∀ (x y : RegNum) (s : State),
    (∃ t, exec (.ldReg x y) s = .next t ∧ t.getV x = s.getV y ∧ Frame { regs := oneReg x } s t) ∧
    (∃ t, exec (.orReg x y) s = .next t ∧
      (∀ k, (t.getV x).getLsbD k = ((s.getV x).getLsbD k || (s.getV y).getLsbD k)) ∧
      Frame { regs := oneReg x } s t) ∧
    (∃ t, exec (.andReg x y) s = .next t ∧
      (∀ k, (t.getV x).getLsbD k = ((s.getV x).getLsbD k && (s.getV y).getLsbD k)) ∧
      Frame { regs := oneReg x } s t) ∧
    (∃ t, exec (.xorReg x y) s = .next t ∧
      (∀ k, (t.getV x).getLsbD k = ((s.getV x).getLsbD k ^^ (s.getV y).getLsbD k)) ∧
      Frame { regs := oneReg x } s t)

/-- R156, R162: result and carry of ADD Vx,Vy hold the whole sum; with x = 15 the result overwrites the carry. -/
def Obligations.AddRegSumAndCarry : Prop :=
  ∀ (x y : RegNum) (s : State), ∃ t, exec (.addReg x y) s = .next t ∧
    (x ≠ vf → (t.getV x).toNat + 256 * (t.getV vf).toNat = (s.getV x).toNat + (s.getV y).toNat) ∧
    (x = vf → (t.getV vf).toNat = ((s.getV vf).toNat + (s.getV y).toNat) % 256) ∧
    Frame { regs := regAndFlag x } s t

/-- R157, R159: difference modulo 256 and the strict flag of SUB and SUBN, with neither register VF. -/
def Obligations.SubtractStrictFlag : Prop :=
  ∀ (x y : RegNum) (s : State), x ≠ vf → y ≠ vf →
    (∃ t, exec (.subReg x y) s = .next t ∧
      (t.getV x).toNat = ((s.getV x).toNat + 256 - (s.getV y).toNat) % 256 ∧
      (t.getV vf).toNat = (if (s.getV x).toNat > (s.getV y).toNat then 1 else 0) ∧
      Frame { regs := regAndFlag x } s t) ∧
    (∃ t, exec (.subnReg x y) s = .next t ∧
      (t.getV x).toNat = ((s.getV y).toNat + 256 - (s.getV x).toNat) % 256 ∧
      (t.getV vf).toNat = (if (s.getV y).toNat > (s.getV x).toNat then 1 else 0) ∧
      Frame { regs := regAndFlag x } s t)

/-- R163, columns 2 to 4 for SUB and SUBN (decision D15, log 9): the second statement reads the flag just written. -/
def Obligations.SubtractThroughFlag : Prop :=
  ∀ (r : RegNum) (s : State), r ≠ vf →
    (∃ t, exec (.subReg vf r) s = .next t ∧
      (t.getV vf).toNat =
        ((if (s.getV vf).toNat > (s.getV r).toNat then 1 else 0) + 256 - (s.getV r).toNat) % 256 ∧
      Frame { regs := oneReg vf } s t) ∧
    (∃ t, exec (.subReg r vf) s = .next t ∧
      (t.getV vf).toNat = (if (s.getV r).toNat > (s.getV vf).toNat then 1 else 0) ∧
      (t.getV r).toNat = ((s.getV r).toNat + 256 - (t.getV vf).toNat) % 256 ∧
      Frame { regs := regAndFlag r } s t) ∧
    (∃ t, exec (.subnReg vf r) s = .next t ∧
      (t.getV vf).toNat =
        ((s.getV r).toNat + 256 - (if (s.getV r).toNat > (s.getV vf).toNat then 1 else 0)) % 256 ∧
      Frame { regs := oneReg vf } s t) ∧
    (∃ t, exec (.subnReg r vf) s = .next t ∧
      (t.getV vf).toNat = (if (s.getV vf).toNat > (s.getV r).toNat then 1 else 0) ∧
      (t.getV r).toNat = ((t.getV vf).toNat + 256 - (s.getV r).toNat) % 256 ∧
      Frame { regs := regAndFlag r } s t) ∧
    (∃ t, exec (.subReg vf vf) s = .next t ∧ t.getV vf = 0 ∧ Frame { regs := oneReg vf } s t) ∧
    (∃ t, exec (.subnReg vf vf) s = .next t ∧ t.getV vf = 0 ∧ Frame { regs := oneReg vf } s t)

/-- R158, R160, R163: result and flag of a shift hold every bit of the operand; with x = 15 (decision D15, log 9) SHR ends 0
and SHL ends 0 or 2. -/
def Obligations.ShiftsKeepEveryBit : Prop :=
  ∀ (x : RegNum) (s : State),
    (∃ t, exec (.shr x) s = .next t ∧
      (x ≠ vf → 2 * (t.getV x).toNat + (t.getV vf).toNat = (s.getV x).toNat ∧ (t.getV vf).toNat ≤ 1) ∧
      (x = vf → t.getV vf = 0) ∧ Frame { regs := regAndFlag x } s t) ∧
    (∃ t, exec (.shl x) s = .next t ∧
      (x ≠ vf → (t.getV x).toNat + 256 * (t.getV vf).toNat = 2 * (s.getV x).toNat) ∧
      (x = vf → (t.getV vf).toNat = 2 * ((s.getV vf).toNat / 128)) ∧ Frame { regs := regAndFlag x } s t)

/-- R161: RND masks the step's random input, whatever it is. -/
def Obligations.RndMasksInput : Prop :=
  ∀ (x : RegNum) (kk rnd : Byte) (s : State), ∃ t, exec (.rnd x kk) (s.present s.keys rnd) = .next t ∧
    (∀ k, (t.getV x).getLsbD k = (rnd.getLsbD k && kk.getLsbD k)) ∧
    Frame { regs := oneReg x } (s.present s.keys rnd) t

/-- R253: no arithmetic instruction can fault, in any state. -/
def Obligations.ArithmeticNeverFaults : Prop :=
  ∀ (i : Instr) (s : State), i.isArithmetic = true → ∃ t, exec i s = .next t

/-! ### The framebuffer -/

/-- R200: CLS turns every pixel off and touches nothing else. -/
def Obligations.ClsClearsPicture : Prop :=
  ∀ s : State, ∃ t, exec .cls s = .next t ∧ (∀ k < 2048, t.cell k = false) ∧ Frame { fb := true } s t

/-- R201, R202 (decision D13, log 12): a sprite whose rows can all be drawn is XORed into the picture, and VF is 1 exactly
when a drawn bit met a pixel that was on. -/
def Obligations.DrwXorsSprite : Prop :=
  ∀ (x y : RegNum) (n : Nibble) (s : State), (∀ r < n.toNat, RowOnGrid s x y r) →
    ∃ t, exec (.drw x y n) s = .next t ∧
      (∀ row col, t.pixel row col = (s.pixel row col ^^ spriteOn s x y n row col)) ∧
      (t.getV vf = 1 ∧ (∃ row col, spriteOn s x y n row col = true ∧ s.pixel row col = true) ∨
        t.getV vf = 0 ∧ ∀ row col, spriteOn s x y n row col = true → s.pixel row col = false) ∧
      Frame { regs := oneReg vf, fb := true } s t

/-- R201: n = 0 draws nothing, reads no memory wherever I points, and leaves VF = 0. -/
def Obligations.DrwOfZeroRows : Prop :=
  ∀ (x y : RegNum) (s : State), ∃ t, exec (.drw x y 0) s = .next t ∧ t.getV vf = 0 ∧
    Frame { regs := oneReg vf } s t

/-- R203, R250 (decisions D7, D12, logs 11, 13): the first row that cannot be drawn is the fault, its byte's address first,
then its first set bit off the grid. -/
def Obligations.DrwReportsFirstFault : Prop :=
  ∀ (x y : RegNum) (n : Nibble) (s : State) (r : Nat), r < n.toNat → (∀ q < r, RowOnGrid s x y q) →
    (0xFFF < baseAddr s + r → exec (.drw x y n) s = .fault (.memOutOfRange (baseAddr s + r))) ∧
    (baseAddr s + r ≤ 0xFFF → ∀ c < 8, spriteBit (spriteByte s r) c = true →
      (63 < startCol s x + c ∨ 31 < startRow s y + r) →
      (∀ d < c, spriteBit (spriteByte s r) d = true → startCol s x + d ≤ 63 ∧ startRow s y + r ≤ 31) →
      exec (.drw x y n) s = .fault (.drawOutOfBounds (startCol s x + c) (startRow s y + r)))

/-- R201: the same sprite drawn twice at the same place, with neither coordinate in VF, restores the picture. The second
draw meets exactly the pixels the first turned on, so it leaves VF = 1 when there was one: for a sprite that met no pixel,
when it has a set bit. The remark of R201 without that condition contradicts its pseudocode (log 24). -/
def Obligations.DrawTwiceRestoresPicture : Prop :=
  ∀ (x y : RegNum) (n : Nibble) (s t : State), x ≠ vf → y ≠ vf → exec (.drw x y n) s = .next t →
    ∃ u, exec (.drw x y n) t = .next u ∧ u.fb = s.fb ∧
      (u.getV vf = 1 ∧ (∃ row col, spriteOn s x y n row col = true ∧ s.pixel row col = false) ∨
        u.getV vf = 0 ∧ ∀ row col, spriteOn s x y n row col = true → s.pixel row col = true)

/-! ### Control transfer -/

/-- R131, R137: the two jumps; the sum of JP V0,nnn is not reduced modulo 4096. -/
def Obligations.JumpsSetPc : Prop :=
  ∀ (nnn : Addr12) (s : State),
    (∃ t, exec (.jp nnn) s = .next t ∧ t.pc.toNat = nnn.toNat ∧ Frame { pc := true } s t) ∧
    (∃ t, exec (.jpV0 nnn) s = .next t ∧ t.pc.toNat = (s.getV 0).toNat + nnn.toNat ∧ Frame { pc := true } s t)

/-- R132, R245 (decision D9, log 14): CALL pushes the address of the next instruction, and faults on a full stack. -/
def Obligations.CallPushesReturn : Prop :=
  ∀ (nnn : Addr12) (s : State),
    (s.sp.val < 16 → ∃ t, exec (.call nnn) s = .next t ∧ t.pc.toNat = nnn.toNat ∧ t.sp.val = s.sp.val + 1 ∧
      t.stack[s.sp.val]? = some s.pc ∧ (∀ k : Nat, k ≠ s.sp.val → t.stack[k]? = s.stack[k]?) ∧
      Frame { pc := true, stack := true } s t) ∧
    (s.sp.val = 16 → exec (.call nnn) s = .fault (.stackOverflow (s.pc - 2)))

/-- R130, R246 (decision D10, log 14): RET pops the top slot, which keeps its value, and faults on an empty stack. -/
def Obligations.RetPopsReturn : Prop :=
  ∀ s : State,
    (0 < s.sp.val → ∃ t, exec .ret s = .next t ∧ s.stack[s.sp.val - 1]? = some t.pc ∧ t.sp.val = s.sp.val - 1 ∧
      t.stack = s.stack ∧ Frame { pc := true, stack := true } s t) ∧
    (s.sp.val = 0 → exec .ret s = .fault (.stackUnderflow (s.pc - 2)))

/-- R130, R132: a RET in any state with the stack a CALL left, restores pc and sp as they were before the CALL. -/
def Obligations.CallThenRetReturns : Prop :=
  ∀ (nnn : Addr12) (s t u : State), exec (.call nnn) s = .next t → u.stack = t.stack → u.sp = t.sp →
    ∃ v, exec .ret u = .next v ∧ v.pc = s.pc ∧ v.sp = s.sp

/-- R133: the words that select SE Vx,kk, and its effect. That kk is instr[7:0] is the spec's inference (R8, G5), log 20. -/
def Obligations.SeImmSkipsWhenEqual : Prop :=
  (∀ w : Word, w &&& 0xF000 = 0x3000 → decodeWord w = some (.seImm (w.extractLsb' 8 4) (w.extractLsb' 0 8))) ∧
  ∀ (x : RegNum) (kk : Byte) (s : State), ∃ t, exec (.seImm x kk) s = .next t ∧
    (s.getV x = kk → t.pc = s.pc + 2) ∧ (s.getV x ≠ kk → t.pc = s.pc) ∧ Frame { pc := true } s t

/-- R134, R135, R136: the other register skips. -/
def Obligations.RegisterSkips : Prop :=
  ∀ (x y : RegNum) (kk : Byte) (s : State),
    (∃ t, exec (.sneImm x kk) s = .next t ∧ t.pc = (if s.getV x = kk then s.pc else s.pc + 2) ∧
      Frame { pc := true } s t) ∧
    (∃ t, exec (.seReg x y) s = .next t ∧ t.pc = (if s.getV x = s.getV y then s.pc + 2 else s.pc) ∧
      Frame { pc := true } s t) ∧
    (∃ t, exec (.sneReg x y) s = .next t ∧ t.pc = (if s.getV x = s.getV y then s.pc else s.pc + 2) ∧
      Frame { pc := true } s t)

/-! ### Keypad and timers -/

/-- R220, R221: the key skips test the key numbered by the register, for V[x] at most 15. -/
def Obligations.KeySkipsTestKey : Prop :=
  ∀ (x : RegNum) (s : State), (s.getV x).toNat ≤ 15 →
    (∃ t, exec (.skp x) s = .next t ∧
      t.pc = (if s.keys.getLsbD (s.getV x).toNat = true then s.pc + 2 else s.pc) ∧ Frame { pc := true } s t) ∧
    (∃ t, exec (.sknp x) s = .next t ∧
      t.pc = (if s.keys.getLsbD (s.getV x).toNat = true then s.pc else s.pc + 2) ∧ Frame { pc := true } s t)

/-- R226, R248 (decision D14, log 15): the key skips fault for V[x] above 15; it is not reduced to its low nibble. -/
def Obligations.KeySkipsFaultAbove15 : Prop :=
  ∀ (x : RegNum) (s : State), 15 < (s.getV x).toNat →
    exec (.skp x) s = .fault (.keyIndexOutOfRange (s.getV x)) ∧
    exec (.sknp x) s = .fault (.keyIndexOutOfRange (s.getV x))

/-- R223: LD Vx,K takes the least pressed key; with none pressed it puts pc back by 2 and writes no register. -/
def Obligations.WaitKeyTakesLeast : Prop :=
  ∀ (x : RegNum) (s : State),
    (∀ k < 16, s.keys.getLsbD k = true → (∀ j < k, s.keys.getLsbD j = false) →
      ∃ t, exec (.ldVxK x) s = .next t ∧ (t.getV x).toNat = k ∧ Frame { regs := oneReg x } s t) ∧
    ((∀ k < 16, s.keys.getLsbD k = false) →
      ∃ t, exec (.ldVxK x) s = .next t ∧ t.pc = s.pc - 2 ∧ Frame { pc := true } s t)

/-- R222, R224, R225: the timer moves, before the tick. -/
def Obligations.TimerMoves : Prop :=
  ∀ (x : RegNum) (s : State),
    (∃ t, exec (.ldVxDt x) s = .next t ∧ t.getV x = s.dt ∧ Frame { regs := oneReg x } s t) ∧
    (∃ t, exec (.ldDtVx x) s = .next t ∧ t.dt = s.getV x ∧ Frame { dt := true } s t) ∧
    (∃ t, exec (.ldStVx x) s = .next t ∧ t.st = s.getV x ∧ Frame { st := true } s t)

/-! ### The index register, loads and stores -/

/-- R180, R181, R182: the three writers of I. That ADD I,Vx wraps modulo 65536 is decision D11 (log 10). -/
def Obligations.IndexWriters : Prop :=
  ∀ (nnn : Addr12) (x : RegNum) (s : State),
    (∃ t, exec (.ldI nnn) s = .next t ∧ t.index.toNat = nnn.toNat ∧ Frame { index := true } s t) ∧
    (∃ t, exec (.addI x) s = .next t ∧ t.index.toNat = (s.index.toNat + (s.getV x).toNat) % 65536 ∧
      Frame { index := true } s t) ∧
    (∃ t, exec (.ldF x) s = .next t ∧ t.index.toNat = 0x050 + 5 * (s.getV x).toNat ∧ Frame { index := true } s t)

/-- R183: LD B,Vx stores the three decimal digits at I, I + 1, I + 2 and nothing else. -/
def Obligations.BcdStoresDigits : Prop :=
  ∀ (x : RegNum) (s : State), baseAddr s + 2 ≤ 0xFFF →
    ∃ t, exec (.ldB x) s = .next t ∧
      100 * (t.mem.peek (baseAddr s)).toNat + 10 * (t.mem.peek (baseAddr s + 1)).toNat +
        (t.mem.peek (baseAddr s + 2)).toNat = (s.getV x).toNat ∧
      (∀ k < 3, (t.mem.peek (baseAddr s + k)).toNat ≤ 9) ∧
      Frame { mem := bytesFrom (baseAddr s) 3 } s t

/-- R184: LD [I],Vx stores V0 to Vx at I onward, and I stays. -/
def Obligations.StoreRegsAtIndex : Prop :=
  ∀ (x : RegNum) (s : State), baseAddr s + x.toNat ≤ 0xFFF →
    ∃ t, exec (.stRegs x) s = .next t ∧
      (∀ r : RegNum, r.toNat ≤ x.toNat → t.mem.peek (baseAddr s + r.toNat) = s.getV r) ∧
      Frame { mem := bytesFrom (baseAddr s) (x.toNat + 1) } s t

/-- R185: LD Vx,[I] loads V0 to Vx from I onward, and I and memory stay. -/
def Obligations.LoadRegsFromIndex : Prop :=
  ∀ (x : RegNum) (s : State), baseAddr s + x.toNat ≤ 0xFFF →
    ∃ t, exec (.ldRegs x) s = .next t ∧
      (∀ r : RegNum, r.toNat ≤ x.toNat → t.getV r = s.mem.peek (baseAddr s + r.toNat)) ∧
      Frame { regs := fun r => decide (r.toNat ≤ x.toNat) } s t

/-- R183 to R186, R244 (decision D7, log 13): an access past 0xFFF faults with the first address above 0xFFF; no address is
reduced modulo 4096. -/
def Obligations.MemoryAccessFaultAddress : Prop :=
  ∀ (x : RegNum) (s : State),
    (0xFFF < baseAddr s + 2 → exec (.ldB x) s = .fault (.memOutOfRange (max (baseAddr s) 0x1000))) ∧
    (0xFFF < baseAddr s + x.toNat →
      exec (.stRegs x) s = .fault (.memOutOfRange (max (baseAddr s) 0x1000)) ∧
      exec (.ldRegs x) s = .fault (.memOutOfRange (max (baseAddr s) 0x1000)))

/-- R184, R185 (E8): what LD [I],Vx stored, LD Vx,[I] restores, in any later state with the same I and the same bytes there,
whatever its registers hold. -/
def Obligations.StoreThenLoadRestores : Prop :=
  ∀ (x : RegNum) (s t u : State), exec (.stRegs x) s = .next t → u.index = t.index →
    (∀ a, bytesFrom (baseAddr s) (x.toNat + 1) a = true → u.mem.peek a = t.mem.peek a) →
    ∃ v, exec (.ldRegs x) u = .next v ∧ ∀ r : RegNum, r.toNat ≤ x.toNat → v.getV r = s.getV r

/-- R57, R64: two bytes stored by LD [I],Vx and then fetched make the word with the first byte high, in the very next
fetch. -/
def Obligations.StoredWordIsFetched : Prop :=
  ∀ (x : RegNum) (s t : State), 1 ≤ x.toNat → exec (.stRegs x) s = .next t → t.pc = s.index →
    ∃ w, fetch t = .ok w ∧ w.toNat = (s.getV 0).toNat * 256 + (s.getV 1).toNat

/-! ### The host boundary -/

/-- R281 (decision D18, log 17): a load of at most 3584 bytes writes them at 0x200 onward and nothing else, the latch
included. -/
def Obligations.LoadWritesImage : Prop :=
  ∀ (bytes : List Byte) (s : State), bytes.length ≤ 3584 →
    ∃ t, load bytes s = .ok t ∧
      (∀ k : Nat, k < bytes.length → bytes[k]? = some (t.mem.peek (0x200 + k))) ∧
      Frame { mem := bytesFrom 0x200 bytes.length } s t

/-- R242: RomTooLarge is the outcome of every longer load and of no other, with the actual length and 3584, the machine
staying exactly as it was; no step raises it. -/
def Obligations.RomTooLargeOnlyFromLoad : Prop :=
  (∀ (bytes : List Byte) (s : State) (f : Fault), load bytes s = .failed f ↔
    3584 < bytes.length ∧ f = .romTooLarge bytes.length 3584) ∧
  (∀ (bytes : List Byte) (s : State), 3584 < bytes.length → afterLoad s (load bytes s) = s) ∧
  ∀ (s : State) (a m : Nat), step s ≠ .fault (.romTooLarge a m)

/-- R35, R280: the values the spec states for reset, for every FONT (R5, R31): row k of glyph d at 0x050 + 5 * d + k, and
0 in the rest of memory. That I is 0 is decision D16 (log 5). `State.reset` has the default FONT (decision D17, log 6). The
stack slots and the inputs are the model's choice and not stated. -/
def Obligations.ResetLeavesSpecValues : Prop :=
  State.reset = State.resetWith defaultFont ∧
  ∀ font : Font,
    (∀ r, (State.resetWith font).getV r = 0) ∧ (State.resetWith font).index = 0 ∧ (State.resetWith font).pc = 0x200 ∧
    (State.resetWith font).sp.val = 0 ∧ (State.resetWith font).dt = 0 ∧ (State.resetWith font).st = 0 ∧
    (∀ row col, (State.resetWith font).pixel row col = false) ∧
    (∀ a, a < 0x050 ∨ 0x0A0 ≤ a → (State.resetWith font).mem.peek a = 0) ∧
    (∀ (d : Fin 16) (k : Fin 5), (State.resetWith font).mem.peek (0x050 + 5 * d.val + k.val) = font[d][k]) ∧
    (State.resetWith font).faulted = none

/-- R121, R289 (2): at an idle loop, a jump to its own address, every step comes back to the same idle state; only the timers
tick and the inputs are renewed. -/
def Obligations.IdleLoopStays : Prop :=
  ∀ s : State, s.idle = true →
    ∃ t, step s = .next t ∧ t.idle = true ∧ t.faulted = none ∧ t.pc = s.pc ∧ t.v = s.v ∧ t.index = s.index ∧
      t.sp = s.sp ∧ t.stack = s.stack ∧ t.mem = s.mem ∧ t.fb = s.fb ∧
      t.dt.toNat = s.dt.toNat - 1 ∧ t.st.toNat = s.st.toNat - 1

/-! ### Runs -/

/-- R290 (1), R282, R283: a launch succeeds exactly for an image of at most 3584 bytes, and leaves the reset state (I = 0 by
decision D16, log 5) with the image at 0x200, FONT at 0x050 and nothing else nonzero. -/
def Obligations.LaunchIsResetWithImage : Prop :=
  ∀ r : Run,
    ((∃ s, r.launch = .ok s) ↔ r.image.length ≤ 3584) ∧
    ∀ s, r.launch = .ok s →
      (∀ q, s.getV q = 0) ∧ s.index = 0 ∧ s.pc = 0x200 ∧ s.sp.val = 0 ∧ s.dt = 0 ∧ s.st = 0 ∧ s.faulted = none ∧
      (∀ row col, s.pixel row col = false) ∧
      (∀ k : Nat, k < r.image.length → r.image[k]? = some (s.mem.peek (0x200 + k))) ∧
      (∀ (d : Fin 16) (k : Fin 5), s.mem.peek (0x050 + 5 * d.val + k.val) = r.font[d][k]) ∧
      ∀ a, a < 0x050 ∨ (0x0A0 ≤ a ∧ a < 0x200) ∨ 0x200 + r.image.length ≤ a → s.mem.peek a = 0

/-- R288: the state after k steps depends on FONT, the image and the inputs of steps 1 to k alone; a run that has failed has
no later state. -/
def Obligations.RunStateFromImageAndInputs : Prop :=
  ∀ (r q : Run) (k : Nat), r.font = q.font → r.image = q.image → (∀ j < k, r.inputs j = q.inputs j) →
    r.after k = q.after k ∧ (r.after k = none → ∀ n, r.after (k + n) = none)

/-- R289, R290: no state of a run has a fault latched, and every one is a state the machine can reach. -/
def Obligations.RunStatesUnfaulted : Prop :=
  ∀ (r : Run) (k : Nat) (t : State), r.after k = some t → t.faulted = none ∧ Reachable r.font t

/-- R289 (2) (decision D20, log 25): a run has at most one end by idle loop, and from there every later state, under any
inputs, differs in the timers alone, which count down to 0 and stay, and in the model's inputs. -/
def Obligations.IdleEndPersists : Prop :=
  ∀ (r : Run) (k : Nat) (t : State), r.EndsIdle k t →
    (∀ n, ∃ u, r.after (k + n) = some u ∧ u.idle = true ∧ u.pc = t.pc ∧ u.v = t.v ∧ u.index = t.index ∧ u.sp = t.sp ∧
      u.stack = t.stack ∧ u.mem = t.mem ∧ u.fb = t.fb ∧ u.faulted = none ∧
      u.dt.toNat = t.dt.toNat - n ∧ u.st.toNat = t.st.toNat - n) ∧
    ∀ j u, r.EndsIdle j u → j = k ∧ u = t
end

