-- ==== Sys2Proof/Laws/Decode.lean ====
section
/-! SUPPORT. The fields of the words the encoder builds, what the opcode table's masks leave of a word, and the two bytes
of a word (30_encoding R81, R82, R95). -/

namespace Sys2Proof

/-! ### The bits of each format (R82) -/

theorem getLsbD_wordA (op : BitVec 4) (nnn : Addr12) (k : Nat) :
    (wordA op nnn).getLsbD k = if k < 12 then nnn.getLsbD k else op.getLsbD (k - 12) :=
  BitVec.getLsbD_append

theorem getLsbD_wordXK (op : BitVec 4) (x : RegNum) (kk : Byte) (k : Nat) :
    (wordXK op x kk).getLsbD k =
      if k < 8 then kk.getLsbD k else if k - 8 < 4 then x.getLsbD (k - 8) else op.getLsbD (k - 8 - 4) := by
  have h1 : (wordXK op x kk).getLsbD k = if k < 8 then kk.getLsbD k else (op ++ x).getLsbD (k - 8) :=
    BitVec.getLsbD_append
  rw [h1, BitVec.getLsbD_append]

theorem getLsbD_wordXYN (op : BitVec 4) (x y : RegNum) (n : Nibble) (k : Nat) :
    (wordXYN op x y n).getLsbD k =
      if k < 4 then n.getLsbD k else if k - 4 < 4 then y.getLsbD (k - 4)
      else if k - 4 - 4 < 4 then x.getLsbD (k - 4 - 4) else op.getLsbD (k - 4 - 4 - 4) := by
  have h1 : (wordXYN op x y n).getLsbD k = if k < 4 then n.getLsbD k else ((op ++ x) ++ y).getLsbD (k - 4) :=
    BitVec.getLsbD_append
  have h2 : ((op ++ x) ++ y).getLsbD (k - 4) =
      if k - 4 < 4 then y.getLsbD (k - 4) else (op ++ x).getLsbD (k - 4 - 4) := BitVec.getLsbD_append
  rw [h1, h2, BitVec.getLsbD_append]

theorem getLsbD_wordOfBytes (hi lo : Byte) (k : Nat) :
    (wordOfBytes hi lo).getLsbD k = if k < 8 then lo.getLsbD k else hi.getLsbD (k - 8) :=
  BitVec.getLsbD_append

/-! ### Each field of each format -/

@[simp] theorem fieldOp_wordA (op : BitVec 4) (nnn : Addr12) : fieldOp (wordA op nnn) = op := by
  apply BitVec.eq_of_getLsbD_eq; intro i hi
  simp [fieldOp, getLsbD_wordA, hi]

@[simp] theorem fieldNnn_wordA (op : BitVec 4) (nnn : Addr12) : fieldNnn (wordA op nnn) = nnn := by
  apply BitVec.eq_of_getLsbD_eq; intro i hi
  simp [fieldNnn, getLsbD_wordA, hi]

@[simp] theorem fieldOp_wordXK (op : BitVec 4) (x : RegNum) (kk : Byte) : fieldOp (wordXK op x kk) = op := by
  apply BitVec.eq_of_getLsbD_eq; intro i hi
  simp only [fieldOp, BitVec.getLsbD_extractLsb', hi, decide_true, Bool.true_and, getLsbD_wordXK]
  interval_cases i <;> rfl

@[simp] theorem fieldX_wordXK (op : BitVec 4) (x : RegNum) (kk : Byte) : fieldX (wordXK op x kk) = x := by
  apply BitVec.eq_of_getLsbD_eq; intro i hi
  simp [fieldX, getLsbD_wordXK, hi]

@[simp] theorem fieldKk_wordXK (op : BitVec 4) (x : RegNum) (kk : Byte) : fieldKk (wordXK op x kk) = kk := by
  apply BitVec.eq_of_getLsbD_eq; intro i hi
  simp [fieldKk, getLsbD_wordXK, hi]

/-- The low nibble of an XK word is that of its byte: the key of family 0xE (R89). -/
@[simp] theorem fieldN_wordXK (op : BitVec 4) (x : RegNum) (kk : Byte) :
    fieldN (wordXK op x kk) = kk.extractLsb' 0 4 := by
  apply BitVec.eq_of_getLsbD_eq; intro i hi
  simp [fieldN, getLsbD_wordXK, hi, show i < 8 by omega]

@[simp] theorem fieldOp_wordXYN (op : BitVec 4) (x y : RegNum) (n : Nibble) : fieldOp (wordXYN op x y n) = op := by
  apply BitVec.eq_of_getLsbD_eq; intro i hi
  simp only [fieldOp, BitVec.getLsbD_extractLsb', hi, decide_true, Bool.true_and, getLsbD_wordXYN]
  interval_cases i <;> rfl

@[simp] theorem fieldX_wordXYN (op : BitVec 4) (x y : RegNum) (n : Nibble) : fieldX (wordXYN op x y n) = x := by
  apply BitVec.eq_of_getLsbD_eq; intro i hi
  simp only [fieldX, BitVec.getLsbD_extractLsb', hi, decide_true, Bool.true_and, getLsbD_wordXYN]
  interval_cases i <;> rfl

@[simp] theorem fieldY_wordXYN (op : BitVec 4) (x y : RegNum) (n : Nibble) : fieldY (wordXYN op x y n) = y := by
  apply BitVec.eq_of_getLsbD_eq; intro i hi
  simp only [fieldY, BitVec.getLsbD_extractLsb', hi, decide_true, Bool.true_and, getLsbD_wordXYN]
  interval_cases i <;> rfl

@[simp] theorem fieldN_wordXYN (op : BitVec 4) (x y : RegNum) (n : Nibble) : fieldN (wordXYN op x y n) = n := by
  apply BitVec.eq_of_getLsbD_eq; intro i hi
  simp [fieldN, getLsbD_wordXYN, hi]

/-! ### The masks of the opcode table (R95) -/

theorem and_mask_op (w : Word) : w &&& 0xF000 = wordA (fieldOp w) 0 := by
  apply BitVec.eq_of_getLsbD_eq; intro i hi
  simp only [BitVec.getLsbD_and, getLsbD_wordA, fieldOp, BitVec.getLsbD_extractLsb']
  interval_cases i <;> simp

theorem and_mask_op_n (w : Word) : w &&& 0xF00F = wordXYN (fieldOp w) 0 0 (fieldN w) := by
  apply BitVec.eq_of_getLsbD_eq; intro i hi
  simp only [BitVec.getLsbD_and, getLsbD_wordXYN, fieldOp, fieldN, BitVec.getLsbD_extractLsb']
  interval_cases i <;> simp

theorem and_mask_op_kk (w : Word) : w &&& 0xF0FF = wordXK (fieldOp w) 0 (fieldKk w) := by
  apply BitVec.eq_of_getLsbD_eq; intro i hi
  simp only [BitVec.getLsbD_and, getLsbD_wordXK, fieldOp, fieldKk, BitVec.getLsbD_extractLsb']
  interval_cases i <;> simp

/-! ### Words and bytes (R53, R57) -/

@[simp] theorem wordOfBytes_bytes (w : Word) : wordOfBytes (highByte w) (lowByte w) = w := by
  apply BitVec.eq_of_getLsbD_eq; intro i hi
  simp only [getLsbD_wordOfBytes, highByte, lowByte, BitVec.getLsbD_extractLsb']
  split
  · next h => simp [h]
  · next h => simp [show i - 8 < 8 by omega, show 8 + (i - 8) = i by omega]

theorem wordOfBytes_toNat (hi lo : Byte) : (wordOfBytes hi lo).toNat = hi.toNat * 256 + lo.toNat := by
  have h1 := BitVec.toNat_append hi lo
  have h2 := Nat.shiftLeft_add_eq_or_of_lt lo.isLt hi.toNat
  have h3 : (wordOfBytes hi lo).toNat = hi.toNat <<< 8 ||| lo.toNat := h1
  rw [h3, ← h2, Nat.shiftLeft_eq]

/-! ### The decoder, entry by entry -/

/-- Decoding the bytes of a word is decoding the word (R80). -/
theorem decode_bytes (w : Word) (rest : List Byte) :
    decode (highByte w :: lowByte w :: rest) =
      match decodeWord w with
      | some i => .ok (i, rest)
      | none => .error (.invalidOpcode w) := by
  cases h : decodeWord w <;> simp [decode, h]

theorem Instr.wellFormed_all (i : Instr) : i.wellFormed = true := by
  cases i <;>
    simp only [Instr.wellFormed, Instr.operands, operandsFit, List.all_cons, List.all_nil, Bool.and_true,
      Bool.and_eq_true, decide_eq_true_eq, BitVec.isLt, and_self]

end Sys2Proof
end

