-- ==== Sys2Proof/Laws/State.lean ====
section
/-! SUPPORT. What each named update of the state leaves in each field, one lemma per field per update, and the register
file's read after write. -/

namespace Sys2Proof.Machine

variable (s : State)

@[simp] theorem State.setV_index (x : RegNum) (b : Byte) : (s.setV x b).index = s.index := rfl
@[simp] theorem State.setV_pc (x : RegNum) (b : Byte) : (s.setV x b).pc = s.pc := rfl
@[simp] theorem State.setV_sp (x : RegNum) (b : Byte) : (s.setV x b).sp = s.sp := rfl
@[simp] theorem State.setV_stack (x : RegNum) (b : Byte) : (s.setV x b).stack = s.stack := rfl
@[simp] theorem State.setV_dt (x : RegNum) (b : Byte) : (s.setV x b).dt = s.dt := rfl
@[simp] theorem State.setV_st (x : RegNum) (b : Byte) : (s.setV x b).st = s.st := rfl
@[simp] theorem State.setV_mem (x : RegNum) (b : Byte) : (s.setV x b).mem = s.mem := rfl
@[simp] theorem State.setV_fb (x : RegNum) (b : Byte) : (s.setV x b).fb = s.fb := rfl
@[simp] theorem State.setV_keys (x : RegNum) (b : Byte) : (s.setV x b).keys = s.keys := rfl
@[simp] theorem State.setV_rnd (x : RegNum) (b : Byte) : (s.setV x b).rnd = s.rnd := rfl
@[simp] theorem State.setV_inputSeq (x : RegNum) (b : Byte) : (s.setV x b).inputSeq = s.inputSeq := rfl
@[simp] theorem State.setV_faulted (x : RegNum) (b : Byte) : (s.setV x b).faulted = s.faulted := rfl

@[simp] theorem State.setIndex_v (w : Word) : (s.setIndex w).v = s.v := rfl
@[simp] theorem State.setIndex_index (w : Word) : (s.setIndex w).index = w := rfl
@[simp] theorem State.setIndex_pc (w : Word) : (s.setIndex w).pc = s.pc := rfl
@[simp] theorem State.setIndex_sp (w : Word) : (s.setIndex w).sp = s.sp := rfl
@[simp] theorem State.setIndex_stack (w : Word) : (s.setIndex w).stack = s.stack := rfl
@[simp] theorem State.setIndex_dt (w : Word) : (s.setIndex w).dt = s.dt := rfl
@[simp] theorem State.setIndex_st (w : Word) : (s.setIndex w).st = s.st := rfl
@[simp] theorem State.setIndex_mem (w : Word) : (s.setIndex w).mem = s.mem := rfl
@[simp] theorem State.setIndex_fb (w : Word) : (s.setIndex w).fb = s.fb := rfl
@[simp] theorem State.setIndex_keys (w : Word) : (s.setIndex w).keys = s.keys := rfl
@[simp] theorem State.setIndex_rnd (w : Word) : (s.setIndex w).rnd = s.rnd := rfl
@[simp] theorem State.setIndex_inputSeq (w : Word) : (s.setIndex w).inputSeq = s.inputSeq := rfl
@[simp] theorem State.setIndex_faulted (w : Word) : (s.setIndex w).faulted = s.faulted := rfl
@[simp] theorem State.setIndex_getV (w : Word) (q : RegNum) : (s.setIndex w).getV q = s.getV q := rfl

@[simp] theorem State.setPc_v (w : Word) : (s.setPc w).v = s.v := rfl
@[simp] theorem State.setPc_index (w : Word) : (s.setPc w).index = s.index := rfl
@[simp] theorem State.setPc_pc (w : Word) : (s.setPc w).pc = w := rfl
@[simp] theorem State.setPc_sp (w : Word) : (s.setPc w).sp = s.sp := rfl
@[simp] theorem State.setPc_stack (w : Word) : (s.setPc w).stack = s.stack := rfl
@[simp] theorem State.setPc_dt (w : Word) : (s.setPc w).dt = s.dt := rfl
@[simp] theorem State.setPc_st (w : Word) : (s.setPc w).st = s.st := rfl
@[simp] theorem State.setPc_mem (w : Word) : (s.setPc w).mem = s.mem := rfl
@[simp] theorem State.setPc_fb (w : Word) : (s.setPc w).fb = s.fb := rfl
@[simp] theorem State.setPc_keys (w : Word) : (s.setPc w).keys = s.keys := rfl
@[simp] theorem State.setPc_rnd (w : Word) : (s.setPc w).rnd = s.rnd := rfl
@[simp] theorem State.setPc_inputSeq (w : Word) : (s.setPc w).inputSeq = s.inputSeq := rfl
@[simp] theorem State.setPc_faulted (w : Word) : (s.setPc w).faulted = s.faulted := rfl
@[simp] theorem State.setPc_getV (w : Word) (q : RegNum) : (s.setPc w).getV q = s.getV q := rfl

@[simp] theorem State.setStack_v (k : Vector Word 16) (p : Fin 17) : (s.setStack k p).v = s.v := rfl
@[simp] theorem State.setStack_index (k : Vector Word 16) (p : Fin 17) : (s.setStack k p).index = s.index := rfl
@[simp] theorem State.setStack_pc (k : Vector Word 16) (p : Fin 17) : (s.setStack k p).pc = s.pc := rfl
@[simp] theorem State.setStack_sp (k : Vector Word 16) (p : Fin 17) : (s.setStack k p).sp = p := rfl
@[simp] theorem State.setStack_stack (k : Vector Word 16) (p : Fin 17) : (s.setStack k p).stack = k := rfl
@[simp] theorem State.setStack_dt (k : Vector Word 16) (p : Fin 17) : (s.setStack k p).dt = s.dt := rfl
@[simp] theorem State.setStack_st (k : Vector Word 16) (p : Fin 17) : (s.setStack k p).st = s.st := rfl
@[simp] theorem State.setStack_mem (k : Vector Word 16) (p : Fin 17) : (s.setStack k p).mem = s.mem := rfl
@[simp] theorem State.setStack_fb (k : Vector Word 16) (p : Fin 17) : (s.setStack k p).fb = s.fb := rfl
@[simp] theorem State.setStack_keys (k : Vector Word 16) (p : Fin 17) : (s.setStack k p).keys = s.keys := rfl
@[simp] theorem State.setStack_rnd (k : Vector Word 16) (p : Fin 17) : (s.setStack k p).rnd = s.rnd := rfl
@[simp] theorem State.setStack_inputSeq (k : Vector Word 16) (p : Fin 17) : (s.setStack k p).inputSeq = s.inputSeq := rfl
@[simp] theorem State.setStack_faulted (k : Vector Word 16) (p : Fin 17) : (s.setStack k p).faulted = s.faulted := rfl
@[simp] theorem State.setStack_getV (k : Vector Word 16) (p : Fin 17) (q : RegNum) : (s.setStack k p).getV q = s.getV q := rfl

@[simp] theorem State.setDt_v (b : Byte) : (s.setDt b).v = s.v := rfl
@[simp] theorem State.setDt_index (b : Byte) : (s.setDt b).index = s.index := rfl
@[simp] theorem State.setDt_pc (b : Byte) : (s.setDt b).pc = s.pc := rfl
@[simp] theorem State.setDt_sp (b : Byte) : (s.setDt b).sp = s.sp := rfl
@[simp] theorem State.setDt_stack (b : Byte) : (s.setDt b).stack = s.stack := rfl
@[simp] theorem State.setDt_dt (b : Byte) : (s.setDt b).dt = b := rfl
@[simp] theorem State.setDt_st (b : Byte) : (s.setDt b).st = s.st := rfl
@[simp] theorem State.setDt_mem (b : Byte) : (s.setDt b).mem = s.mem := rfl
@[simp] theorem State.setDt_fb (b : Byte) : (s.setDt b).fb = s.fb := rfl
@[simp] theorem State.setDt_keys (b : Byte) : (s.setDt b).keys = s.keys := rfl
@[simp] theorem State.setDt_rnd (b : Byte) : (s.setDt b).rnd = s.rnd := rfl
@[simp] theorem State.setDt_inputSeq (b : Byte) : (s.setDt b).inputSeq = s.inputSeq := rfl
@[simp] theorem State.setDt_faulted (b : Byte) : (s.setDt b).faulted = s.faulted := rfl
@[simp] theorem State.setDt_getV (b : Byte) (q : RegNum) : (s.setDt b).getV q = s.getV q := rfl

@[simp] theorem State.setSt_v (b : Byte) : (s.setSt b).v = s.v := rfl
@[simp] theorem State.setSt_index (b : Byte) : (s.setSt b).index = s.index := rfl
@[simp] theorem State.setSt_pc (b : Byte) : (s.setSt b).pc = s.pc := rfl
@[simp] theorem State.setSt_sp (b : Byte) : (s.setSt b).sp = s.sp := rfl
@[simp] theorem State.setSt_stack (b : Byte) : (s.setSt b).stack = s.stack := rfl
@[simp] theorem State.setSt_dt (b : Byte) : (s.setSt b).dt = s.dt := rfl
@[simp] theorem State.setSt_st (b : Byte) : (s.setSt b).st = b := rfl
@[simp] theorem State.setSt_mem (b : Byte) : (s.setSt b).mem = s.mem := rfl
@[simp] theorem State.setSt_fb (b : Byte) : (s.setSt b).fb = s.fb := rfl
@[simp] theorem State.setSt_keys (b : Byte) : (s.setSt b).keys = s.keys := rfl
@[simp] theorem State.setSt_rnd (b : Byte) : (s.setSt b).rnd = s.rnd := rfl
@[simp] theorem State.setSt_inputSeq (b : Byte) : (s.setSt b).inputSeq = s.inputSeq := rfl
@[simp] theorem State.setSt_faulted (b : Byte) : (s.setSt b).faulted = s.faulted := rfl
@[simp] theorem State.setSt_getV (b : Byte) (q : RegNum) : (s.setSt b).getV q = s.getV q := rfl

@[simp] theorem State.setMem_v (m : Memory) : (s.setMem m).v = s.v := rfl
@[simp] theorem State.setMem_index (m : Memory) : (s.setMem m).index = s.index := rfl
@[simp] theorem State.setMem_pc (m : Memory) : (s.setMem m).pc = s.pc := rfl
@[simp] theorem State.setMem_sp (m : Memory) : (s.setMem m).sp = s.sp := rfl
@[simp] theorem State.setMem_stack (m : Memory) : (s.setMem m).stack = s.stack := rfl
@[simp] theorem State.setMem_dt (m : Memory) : (s.setMem m).dt = s.dt := rfl
@[simp] theorem State.setMem_st (m : Memory) : (s.setMem m).st = s.st := rfl
@[simp] theorem State.setMem_mem (m : Memory) : (s.setMem m).mem = m := rfl
@[simp] theorem State.setMem_fb (m : Memory) : (s.setMem m).fb = s.fb := rfl
@[simp] theorem State.setMem_keys (m : Memory) : (s.setMem m).keys = s.keys := rfl
@[simp] theorem State.setMem_rnd (m : Memory) : (s.setMem m).rnd = s.rnd := rfl
@[simp] theorem State.setMem_inputSeq (m : Memory) : (s.setMem m).inputSeq = s.inputSeq := rfl
@[simp] theorem State.setMem_faulted (m : Memory) : (s.setMem m).faulted = s.faulted := rfl
@[simp] theorem State.setMem_getV (m : Memory) (q : RegNum) : (s.setMem m).getV q = s.getV q := rfl

@[simp] theorem State.setFb_v (f : Vector (BitVec 64) 32) : (s.setFb f).v = s.v := rfl
@[simp] theorem State.setFb_index (f : Vector (BitVec 64) 32) : (s.setFb f).index = s.index := rfl
@[simp] theorem State.setFb_pc (f : Vector (BitVec 64) 32) : (s.setFb f).pc = s.pc := rfl
@[simp] theorem State.setFb_sp (f : Vector (BitVec 64) 32) : (s.setFb f).sp = s.sp := rfl
@[simp] theorem State.setFb_stack (f : Vector (BitVec 64) 32) : (s.setFb f).stack = s.stack := rfl
@[simp] theorem State.setFb_dt (f : Vector (BitVec 64) 32) : (s.setFb f).dt = s.dt := rfl
@[simp] theorem State.setFb_st (f : Vector (BitVec 64) 32) : (s.setFb f).st = s.st := rfl
@[simp] theorem State.setFb_mem (f : Vector (BitVec 64) 32) : (s.setFb f).mem = s.mem := rfl
@[simp] theorem State.setFb_fb (f : Vector (BitVec 64) 32) : (s.setFb f).fb = f := rfl
@[simp] theorem State.setFb_keys (f : Vector (BitVec 64) 32) : (s.setFb f).keys = s.keys := rfl
@[simp] theorem State.setFb_rnd (f : Vector (BitVec 64) 32) : (s.setFb f).rnd = s.rnd := rfl
@[simp] theorem State.setFb_inputSeq (f : Vector (BitVec 64) 32) : (s.setFb f).inputSeq = s.inputSeq := rfl
@[simp] theorem State.setFb_faulted (f : Vector (BitVec 64) 32) : (s.setFb f).faulted = s.faulted := rfl
@[simp] theorem State.setFb_getV (f : Vector (BitVec 64) 32) (q : RegNum) : (s.setFb f).getV q = s.getV q := rfl

@[simp] theorem State.present_v (k : BitVec 16) (r : Byte) : (s.present k r).v = s.v := rfl
@[simp] theorem State.present_index (k : BitVec 16) (r : Byte) : (s.present k r).index = s.index := rfl
@[simp] theorem State.present_pc (k : BitVec 16) (r : Byte) : (s.present k r).pc = s.pc := rfl
@[simp] theorem State.present_sp (k : BitVec 16) (r : Byte) : (s.present k r).sp = s.sp := rfl
@[simp] theorem State.present_stack (k : BitVec 16) (r : Byte) : (s.present k r).stack = s.stack := rfl
@[simp] theorem State.present_dt (k : BitVec 16) (r : Byte) : (s.present k r).dt = s.dt := rfl
@[simp] theorem State.present_st (k : BitVec 16) (r : Byte) : (s.present k r).st = s.st := rfl
@[simp] theorem State.present_mem (k : BitVec 16) (r : Byte) : (s.present k r).mem = s.mem := rfl
@[simp] theorem State.present_fb (k : BitVec 16) (r : Byte) : (s.present k r).fb = s.fb := rfl
@[simp] theorem State.present_keys (k : BitVec 16) (r : Byte) : (s.present k r).keys = k := rfl
@[simp] theorem State.present_rnd (k : BitVec 16) (r : Byte) : (s.present k r).rnd = r := rfl
@[simp] theorem State.present_inputSeq (k : BitVec 16) (r : Byte) : (s.present k r).inputSeq = s.inputSeq := rfl
@[simp] theorem State.present_faulted (k : BitVec 16) (r : Byte) : (s.present k r).faulted = s.faulted := rfl
@[simp] theorem State.present_getV (k : BitVec 16) (r : Byte) (q : RegNum) : (s.present k r).getV q = s.getV q := rfl

@[simp] theorem State.latch_v (f : Fault) : (s.latch f).v = s.v := rfl
@[simp] theorem State.latch_index (f : Fault) : (s.latch f).index = s.index := rfl
@[simp] theorem State.latch_pc (f : Fault) : (s.latch f).pc = s.pc := rfl
@[simp] theorem State.latch_sp (f : Fault) : (s.latch f).sp = s.sp := rfl
@[simp] theorem State.latch_stack (f : Fault) : (s.latch f).stack = s.stack := rfl
@[simp] theorem State.latch_dt (f : Fault) : (s.latch f).dt = s.dt := rfl
@[simp] theorem State.latch_st (f : Fault) : (s.latch f).st = s.st := rfl
@[simp] theorem State.latch_mem (f : Fault) : (s.latch f).mem = s.mem := rfl
@[simp] theorem State.latch_fb (f : Fault) : (s.latch f).fb = s.fb := rfl
@[simp] theorem State.latch_keys (f : Fault) : (s.latch f).keys = s.keys := rfl
@[simp] theorem State.latch_rnd (f : Fault) : (s.latch f).rnd = s.rnd := rfl
@[simp] theorem State.latch_inputSeq (f : Fault) : (s.latch f).inputSeq = s.inputSeq := rfl
@[simp] theorem State.latch_faulted (f : Fault) : (s.latch f).faulted = some f := rfl
@[simp] theorem State.latch_getV (f : Fault) (q : RegNum) : (s.latch f).getV q = s.getV q := rfl

@[simp] theorem State.advance_v : (s.advance).v = s.v := rfl
@[simp] theorem State.advance_index : (s.advance).index = s.index := rfl
@[simp] theorem State.advance_pc : (s.advance).pc = s.pc + 2 := rfl
@[simp] theorem State.advance_sp : (s.advance).sp = s.sp := rfl
@[simp] theorem State.advance_stack : (s.advance).stack = s.stack := rfl
@[simp] theorem State.advance_dt : (s.advance).dt = s.dt := rfl
@[simp] theorem State.advance_st : (s.advance).st = s.st := rfl
@[simp] theorem State.advance_mem : (s.advance).mem = s.mem := rfl
@[simp] theorem State.advance_fb : (s.advance).fb = s.fb := rfl
@[simp] theorem State.advance_keys : (s.advance).keys = s.keys := rfl
@[simp] theorem State.advance_rnd : (s.advance).rnd = s.rnd := rfl
@[simp] theorem State.advance_inputSeq : (s.advance).inputSeq = s.inputSeq := rfl
@[simp] theorem State.advance_faulted : (s.advance).faulted = s.faulted := rfl
@[simp] theorem State.advance_getV (q : RegNum) : (s.advance).getV q = s.getV q := rfl

@[simp] theorem State.tick_v : (s.tick).v = s.v := rfl
@[simp] theorem State.tick_index : (s.tick).index = s.index := rfl
@[simp] theorem State.tick_pc : (s.tick).pc = s.pc := rfl
@[simp] theorem State.tick_sp : (s.tick).sp = s.sp := rfl
@[simp] theorem State.tick_stack : (s.tick).stack = s.stack := rfl
@[simp] theorem State.tick_dt : (s.tick).dt = tickDown s.dt := rfl
@[simp] theorem State.tick_st : (s.tick).st = tickDown s.st := rfl
@[simp] theorem State.tick_mem : (s.tick).mem = s.mem := rfl
@[simp] theorem State.tick_fb : (s.tick).fb = s.fb := rfl
@[simp] theorem State.tick_keys : (s.tick).keys = s.keys := rfl
@[simp] theorem State.tick_rnd : (s.tick).rnd = s.rnd := rfl
@[simp] theorem State.tick_inputSeq : (s.tick).inputSeq = s.inputSeq := rfl
@[simp] theorem State.tick_faulted : (s.tick).faulted = s.faulted := rfl
@[simp] theorem State.tick_getV (q : RegNum) : (s.tick).getV q = s.getV q := rfl

@[simp] theorem State.nextInputs_v : (s.nextInputs).v = s.v := rfl
@[simp] theorem State.nextInputs_index : (s.nextInputs).index = s.index := rfl
@[simp] theorem State.nextInputs_pc : (s.nextInputs).pc = s.pc := rfl
@[simp] theorem State.nextInputs_sp : (s.nextInputs).sp = s.sp := rfl
@[simp] theorem State.nextInputs_stack : (s.nextInputs).stack = s.stack := rfl
@[simp] theorem State.nextInputs_dt : (s.nextInputs).dt = s.dt := rfl
@[simp] theorem State.nextInputs_st : (s.nextInputs).st = s.st := rfl
@[simp] theorem State.nextInputs_mem : (s.nextInputs).mem = s.mem := rfl
@[simp] theorem State.nextInputs_fb : (s.nextInputs).fb = s.fb := rfl
@[simp] theorem State.nextInputs_keys : (s.nextInputs).keys = Config.keysAt s.inputSeq := rfl
@[simp] theorem State.nextInputs_rnd : (s.nextInputs).rnd = Config.rndAt s.inputSeq := rfl
@[simp] theorem State.nextInputs_inputSeq : (s.nextInputs).inputSeq = s.inputSeq + 1 := rfl
@[simp] theorem State.nextInputs_faulted : (s.nextInputs).faulted = s.faulted := rfl
@[simp] theorem State.nextInputs_getV (q : RegNum) : (s.nextInputs).getV q = s.getV q := rfl

/-- A register read after a register write (R10, R20). -/
theorem State.getV_setV (x : RegNum) (b : Byte) (r : RegNum) :
    (s.setV x b).getV r = if r = x then b else s.getV r := by
  unfold State.getV State.setV
  by_cases h : r = x
  · subst h; simp
  · have h' : x.toNat ≠ r.toNat := fun e => h (BitVec.eq_of_toNat_eq e.symm)
    simp [h', h]

@[simp] theorem State.getV_setV_same (x : RegNum) (b : Byte) : (s.setV x b).getV x = b := by
  simp [State.getV_setV]

theorem State.getV_setV_other {x r : RegNum} (b : Byte) (h : r ≠ x) : (s.setV x b).getV r = s.getV r := by
  simp [State.getV_setV, h]

/-- The last write of a register wins. -/
theorem State.setV_setV (x : RegNum) (a b : Byte) : (s.setV x a).setV x b = s.setV x b := by
  unfold State.setV
  simp [Vector.set_set]

end Sys2Proof.Machine
end

