-- ==== Sys2Proof/Laws/Memory.lean ====
section
/-! SUPPORT. Memory: a read after a write, and the canonical form kept by every memory operation (20_memory R52, R60). -/

namespace Sys2Proof.Machine

theorem Memory.peek_insert (m : Memory) (a : Nat) (w : Byte) (b : Nat) :
    (Memory.insert a w m).peek b = if b = a then w else m.peek b := by
  induction m with
  | nil => simp [Memory.insert, Memory.peek, eq_comm]
  | cons c t ih =>
    obtain ⟨d, u⟩ := c
    unfold Memory.insert
    split
    · simp [Memory.peek, eq_comm]
    · split
      · subst d; simp only [Memory.peek, eq_comm (a := b)]; split <;> rfl
      · simp only [Memory.peek, ih]
        split
        · rw [if_neg]; omega
        · rfl

theorem Memory.peek_erase (m : Memory) (a b : Nat) :
    (Memory.erase a m).peek b = if b = a then Memory.background else m.peek b := by
  induction m with
  | nil => simp only [Memory.erase, Memory.peek]; split <;> simp_all
  | cons c t ih =>
    obtain ⟨d, u⟩ := c
    unfold Memory.erase
    split
    · subst d; rw [ih]; simp only [Memory.peek, eq_comm (a := b)]; split <;> rfl
    · simp only [Memory.peek, ih]
      split
      · rw [if_neg]; omega
      · rfl

/-- A byte read after a byte write, at the same address and at every other (R60). -/
theorem Memory.peek_poke (m : Memory) (a : Nat) (w : Byte) (b : Nat) :
    (m.poke a w).peek b = if b = a then w else m.peek b := by
  unfold Memory.poke
  split
  · next h => rw [Memory.peek_erase, h]
  · exact Memory.peek_insert m a w b

/-- A byte read after a run of byte writes: the byte written there, else the byte before. -/
theorem Memory.peek_pokes (bs : List Byte) : ∀ (m : Memory) (a b : Nat),
    (m.pokes a bs).peek b = if h : a ≤ b ∧ b < a + bs.length then bs[b - a]'(by omega) else m.peek b := by
  induction bs with
  | nil => intro m a b; rw [dif_neg]; · rfl
           · simp
  | cons c t ih =>
    intro m a b
    rw [Memory.pokes, ih]
    by_cases h : a + 1 ≤ b ∧ b < a + 1 + t.length
    · have h2 : a ≤ b ∧ b < a + (c :: t).length := by simp only [List.length_cons]; omega
      rw [dif_pos h, dif_pos h2]
      have e : b - a = (b - (a + 1)) + 1 := by omega
      simp [e]
    · rw [dif_neg h, Memory.peek_poke]
      by_cases hb : b = a
      · subst hb
        rw [if_pos rfl, dif_pos ⟨Nat.le_refl _, by simp⟩]
        simp
      · rw [if_neg hb, dif_neg]
        simp only [List.length_cons]; omega

theorem Memory.wfFrom_mono {lo lo' : Nat} (h : lo ≤ lo') : ∀ {m : Memory}, Memory.wfFrom lo' m = true →
    Memory.wfFrom lo m = true
  | [], _ => rfl
  | (a, w) :: t, hm => by
    simp only [Memory.wfFrom, Bool.and_eq_true, decide_eq_true_eq] at hm ⊢
    exact ⟨⟨⟨by omega, hm.1.1.2⟩, hm.1.2⟩, hm.2⟩

theorem Memory.wfFrom_insert {a : Nat} {w : Byte} (ha : a < 0x1000) (hw : w ≠ Memory.background) :
    ∀ {m : Memory} {lo : Nat}, lo ≤ a → Memory.wfFrom lo m = true → Memory.wfFrom lo (Memory.insert a w m) = true
  | [], lo, hlo, _ => by simp [Memory.insert, Memory.wfFrom, ha, hw, hlo]
  | (b, u) :: t, lo, hlo, hm => by
    simp only [Memory.wfFrom, Bool.and_eq_true, decide_eq_true_eq] at hm
    unfold Memory.insert
    split
    · next hab =>
      simp only [Memory.wfFrom, Bool.and_eq_true, decide_eq_true_eq]
      exact ⟨⟨⟨hlo, ha⟩, hw⟩, ⟨⟨by omega, hm.1.1.2⟩, hm.1.2⟩, hm.2⟩
    · split
      · next hab =>
        subst b
        simp only [Memory.wfFrom, Bool.and_eq_true, decide_eq_true_eq]
        exact ⟨⟨⟨hlo, ha⟩, hw⟩, hm.2⟩
      · simp only [Memory.wfFrom, Bool.and_eq_true, decide_eq_true_eq]
        exact ⟨hm.1, Memory.wfFrom_insert ha hw (by omega) hm.2⟩

theorem Memory.wfFrom_erase (a : Nat) : ∀ {m : Memory} {lo : Nat}, Memory.wfFrom lo m = true →
    Memory.wfFrom lo (Memory.erase a m) = true
  | [], _, _ => rfl
  | (b, u) :: t, lo, hm => by
    simp only [Memory.wfFrom, Bool.and_eq_true, decide_eq_true_eq] at hm
    unfold Memory.erase
    split
    · exact Memory.wfFrom_erase a (Memory.wfFrom_mono (by omega) hm.2)
    · simp only [Memory.wfFrom, Bool.and_eq_true, decide_eq_true_eq]
      exact ⟨hm.1, Memory.wfFrom_erase a hm.2⟩

/-- A byte write inside memory keeps the canonical form. -/
theorem Memory.wf_poke {m : Memory} {a : Nat} (w : Byte) (ha : a < 0x1000) (hm : m.wf = true) :
    (m.poke a w).wf = true := by
  unfold Memory.poke
  split
  · exact Memory.wfFrom_erase a hm
  · next hw => exact Memory.wfFrom_insert ha hw (Nat.zero_le a) hm

/-- A run of byte writes inside memory keeps the canonical form. -/
theorem Memory.wf_pokes (bs : List Byte) : ∀ {m : Memory} {a : Nat}, a + bs.length ≤ 0x1000 → m.wf = true →
    (m.pokes a bs).wf = true := by
  induction bs with
  | nil => intro m a _ hm; exact hm
  | cons c t ih =>
    intro m a ha hm
    simp only [List.length_cons] at ha
    exact ih (by omega) (Memory.wf_poke c (by omega) hm)

/-- Bytes listed from an address on read as those bytes there, and as 0 elsewhere. -/
theorem Memory.peek_ofBytes (bs : List Byte) : ∀ a b : Nat,
    Memory.peek (Memory.ofBytes a bs) b = if h : a ≤ b ∧ b < a + bs.length then bs[b - a]'(by omega) else 0 := by
  induction bs with
  | nil => intro a b; rw [dif_neg (by simp)]; rfl
  | cons c t ih =>
    intro a b
    have step : Memory.peek (Memory.ofBytes a (c :: t)) b = if a = b then c else
        Memory.peek (Memory.ofBytes (a + 1) t) b := by
      rw [Memory.ofBytes]
      split
      · next hc =>
        split
        · next hab => rw [ih, dif_neg (by omega), hc]; rfl
        · rfl
      · rfl
    rw [step]
    split
    · next hab => subst hab; simp
    · next hab =>
      rw [ih]
      by_cases h : a + 1 ≤ b ∧ b < a + 1 + t.length
      · rw [dif_pos h, dif_pos (by simp only [List.length_cons]; omega)]
        simp [show b - a = (b - (a + 1)) + 1 by omega]
      · rw [dif_neg h, dif_neg (by simp only [List.length_cons]; omega)]

/-- Bytes listed inside memory are in canonical form. -/
theorem Memory.wfFrom_ofBytes (bs : List Byte) : ∀ {lo a : Nat}, lo ≤ a → a + bs.length ≤ 0x1000 →
    Memory.wfFrom lo (Memory.ofBytes a bs) = true := by
  induction bs with
  | nil => intros; rfl
  | cons c t ih =>
    intro lo a hlo ha
    simp only [List.length_cons] at ha
    unfold Memory.ofBytes
    split
    · exact ih (by omega) (by omega)
    · next hc =>
      have ha' : a < Config.memSize := by simp only [Config.memSize]; omega
      simp [Memory.wfFrom, hlo, ha', hc, ih (Nat.le_refl (a + 1)) (by omega)]

@[simp] theorem fontBytes_length (font : Font) : (fontBytes font).length = 80 := by
  have h : ∀ l : List (Vector Byte 5), (l.flatMap Vector.toList).length = 5 * l.length := by
    intro l
    induction l with
    | nil => rfl
    | cons g t ih => simp only [List.flatMap_cons, List.length_append, Vector.length_toList, ih, List.length_cons]; omega
  rw [fontBytes, h, Vector.length_toList, Config.nglyphs]

/-- Row k of glyph d is byte 5 * d + k of the font (R31). -/
theorem fontBytes_getElem? (font : Font) {d k : Nat} (hd : d < 16) (hk : k < 5) :
    (fontBytes font)[5 * d + k]? = some font[d][k] := by
  have h : ∀ (l : List (Vector Byte 5)) (d : Nat) (hd : d < l.length),
      (l.flatMap Vector.toList)[5 * d + k]? = some l[d][k] := by
    intro l
    induction l with
    | nil => intro d hd; exact absurd hd (by simp)
    | cons g t ih =>
      intro d hd
      rw [List.flatMap_cons]
      cases d with
      | zero => rw [List.getElem?_append_left (by simp; omega)]; simp [hk]
      | succ e =>
        rw [List.getElem?_append_right (by simp; omega), Vector.length_toList,
          show 5 * (e + 1) + k - 5 = 5 * e + k by omega, ih e (by simpa using hd)]
        rfl
  have := h font.toList d (by simpa using hd)
  simpa [fontBytes] using this

/-- Memory after reset, for any FONT: the font's bytes from 0x050 on, 0 elsewhere (R35). -/
theorem Memory.peek_resetWith (font : Font) (a : Nat) :
    (State.resetWith font).mem.peek a =
      if h : 0x050 ≤ a ∧ a < 0x0A0 then (fontBytes font)[a - 0x050]'(by simp; omega) else 0 := by
  show Memory.peek (Memory.ofBytes 0x050 (fontBytes font)) a = _
  rw [Memory.peek_ofBytes]
  simp only [fontBytes_length]

theorem Memory.wf_resetWith (font : Font) : Memory.wf (State.resetWith font).mem = true :=
  Memory.wfFrom_ofBytes _ (Nat.zero_le _) (by simp)

theorem Memory.wf_reset : Memory.wf State.reset.mem = true := Memory.wf_resetWith defaultFont

/-- Where the canonical form holds, a listed cell is read as listed, so no address has two cells. -/
theorem Memory.peek_of_mem_wfFrom : ∀ {m : Memory} {lo a : Nat} {w : Byte}, Memory.wfFrom lo m = true → (a, w) ∈ m →
    lo ≤ a ∧ m.peek a = w
  | (b, u) :: t, lo, a, w, hm, h => by
    simp only [Memory.wfFrom, Bool.and_eq_true, decide_eq_true_eq] at hm
    rcases List.mem_cons.1 h with h | h
    · cases h; exact ⟨hm.1.1.1, by simp [Memory.peek]⟩
    · obtain ⟨h1, h2⟩ := Memory.peek_of_mem_wfFrom hm.2 h
      refine ⟨by omega, ?_⟩
      rw [Memory.peek, if_neg (by omega), h2]

/-- Two memories in canonical form that list cells from an address on and read alike are the same data. -/
theorem Memory.wfFrom_ext : ∀ {m m' : Memory} {lo : Nat}, Memory.wfFrom lo m = true → Memory.wfFrom lo m' = true →
    (∀ a, lo ≤ a → m.peek a = m'.peek a) → m = m'
  | [], [], _, _, _, _ => rfl
  | [], (b, u) :: t, lo, _, h', h => by
    simp only [Memory.wfFrom, Bool.and_eq_true, decide_eq_true_eq] at h'
    have := h b h'.1.1.1
    simp only [Memory.peek, if_true] at this
    exact absurd this.symm h'.1.2
  | (b, u) :: t, [], lo, hm, _, h => by
    simp only [Memory.wfFrom, Bool.and_eq_true, decide_eq_true_eq] at hm
    have := h b hm.1.1.1
    simp only [Memory.peek, if_true] at this
    exact absurd this hm.1.2
  | (b, u) :: t, (b', u') :: t', lo, hm, h', h => by
    have hm0 := hm
    have h'0 := h'
    simp only [Memory.wfFrom, Bool.and_eq_true, decide_eq_true_eq] at hm h'
    have below : ∀ {m : Memory} {lo a : Nat}, Memory.wfFrom lo m = true → a < lo → m.peek a = Memory.background := by
      intro m
      induction m with
      | nil => intro lo a _ _; rfl
      | cons c r ih =>
        obtain ⟨d, x⟩ := c
        intro lo a hw hlt
        simp only [Memory.wfFrom, Bool.and_eq_true, decide_eq_true_eq] at hw
        rw [Memory.peek, if_neg (by omega)]
        exact ih hw.2 (by omega)
    have hbb : b = b' := by
      rcases Nat.lt_trichotomy b b' with hl | he | hl
      · have h1 := h b hm.1.1.1
        have h2 : Memory.wfFrom b' ((b', u') :: t') = true := by
          simp only [Memory.wfFrom, Bool.and_eq_true, decide_eq_true_eq]
          exact ⟨⟨⟨Nat.le_refl _, h'.1.1.2⟩, h'.1.2⟩, h'.2⟩
        rw [below h2 hl] at h1
        simp only [Memory.peek, if_true] at h1
        exact absurd h1 hm.1.2
      · exact he
      · have h1 := h b' h'.1.1.1
        have h2 : Memory.wfFrom b ((b, u) :: t) = true := by
          simp only [Memory.wfFrom, Bool.and_eq_true, decide_eq_true_eq]
          exact ⟨⟨⟨Nat.le_refl _, hm.1.1.2⟩, hm.1.2⟩, hm.2⟩
        rw [below h2 hl] at h1
        simp only [Memory.peek, if_true] at h1
        exact absurd h1.symm h'.1.2
    subst b'
    have hu : u = u' := by
      have := h b hm.1.1.1
      simpa [Memory.peek] using this
    subst u'
    have ht : t = t' := by
      refine Memory.wfFrom_ext hm.2 h'.2 ?_
      intro a ha
      have := h a (by omega)
      simpa [Memory.peek, show b ≠ a by omega] using this
    rw [ht]

/-- Equal contents are equal data: two memories in canonical form that read alike at every address are the same list. -/
theorem Memory.wf_ext {m m' : Memory} (hm : m.wf = true) (hm' : m'.wf = true) (h : ∀ a, m.peek a = m'.peek a) :
    m = m' :=
  Memory.wfFrom_ext hm hm' fun a _ => h a

end Sys2Proof.Machine
end

