-- ==== Sys2Proof/Laws/Ops.lean ====
section
/-! SUPPORT. One lemma per shared operation that says all it can do: memory accesses, block transfers, the stack, skips,
keys, the fetch and the step. -/

namespace Sys2Proof.Machine

/-! ### Memory accesses -/

/-- MemRead answers the byte, or MemOutOfRange above 0xFFF (R52). -/
theorem memRead_eq (s : State) (a : Nat) :
    memRead s a = if a < 0x1000 then .ok (s.mem.peek a) else .error (.memOutOfRange a) := rfl

/-- MemWrite writes the byte, or raises MemOutOfRange above 0xFFF (R52). -/
theorem memWrite_eq (s : State) (a : Nat) (b : Byte) :
    memWrite s a b = if a < 0x1000 then .ok (s.setMem (s.mem.poke a b)) else .error (.memOutOfRange a) := rfl

/-- A run of stores that fits is the run of writes (R57). -/
theorem storeBytes_ok (bs : List Byte) : ∀ (s : State) (a : Nat), a + bs.length ≤ 0x1000 →
    storeBytes s a bs = .ok (s.setMem (s.mem.pokes a bs)) := by
  induction bs with
  | nil => intro s a _; rfl
  | cons b t ih =>
    intro s a h
    simp only [List.length_cons] at h
    rw [storeBytes, memWrite_eq, if_pos (by omega)]
    exact ih _ _ (by omega)

/-- A run of stores that does not fit raises MemOutOfRange at the first address above 0xFFF (D7). -/
theorem storeBytes_error (bs : List Byte) : ∀ (s : State) (a : Nat), 0x1000 < a + bs.length → bs ≠ [] →
    storeBytes s a bs = .error (.memOutOfRange (max a 0x1000)) := by
  induction bs with
  | nil => intro s a _ h; exact absurd rfl h
  | cons b t ih =>
    intro s a h _
    simp only [List.length_cons] at h
    rw [storeBytes, memWrite_eq]
    by_cases ha : a < 0x1000
    · rw [if_pos ha]
      have ht : t ≠ [] := by rintro rfl; simp at h; omega
      have := ih (s.setMem (s.mem.poke a b)) (a + 1) (by omega) ht
      rw [show max a 0x1000 = max (a + 1) 0x1000 by omega]
      exact this
    · rw [if_neg ha, show max a 0x1000 = a by omega]

/-- A run of loads that fits: every register from `i` on takes its byte, the others and everything else stay (R185). -/
theorem loadRegs_ok (count : Nat) : ∀ (s : State) (a i : Nat), a + count ≤ 0x1000 → i + count ≤ 16 →
    ∃ v : Vector Byte 16, loadRegs s a i count = .ok { s with v := v } ∧
      ∀ r : RegNum, State.getV { s with v := v } r =
        if i ≤ r.toNat ∧ r.toNat < i + count then s.mem.peek (a + (r.toNat - i)) else s.getV r := by
  induction count with
  | zero => intro s a i _ _; exact ⟨s.v, rfl, fun r => by rw [if_neg (by omega)]⟩
  | succ n ih =>
    intro s a i ha hi
    obtain ⟨v, hv, hr⟩ := ih (s.setV (BitVec.ofNat 4 i) (s.mem.peek a)) (a + 1) (i + 1) (by omega) (by omega)
    refine ⟨v, ?_, fun r => ?_⟩
    · rw [loadRegs, memRead_eq, if_pos (by omega)]
      exact hv
    · have e := hr r
      have e' : State.getV { s.setV (BitVec.ofNat 4 i) (s.mem.peek a) with v := v } r = State.getV { s with v := v } r :=
        rfl
      rw [e'] at e
      rw [e]
      by_cases h1 : i + 1 ≤ r.toNat ∧ r.toNat < i + 1 + n
      · rw [if_pos h1, if_pos (by omega), State.setV_mem]
        congr 1; omega
      · rw [if_neg h1, State.getV_setV]
        by_cases h2 : r.toNat = i
        · have : r = BitVec.ofNat 4 i := by
            apply BitVec.eq_of_toNat_eq; rw [BitVec.toNat_ofNat, h2, Nat.mod_eq_of_lt (by omega)]
          rw [if_pos this, if_pos (by omega)]
          congr 1; omega
        · have : r ≠ BitVec.ofNat 4 i := by
            rintro rfl; rw [BitVec.toNat_ofNat, Nat.mod_eq_of_lt (by omega)] at h2; exact h2 rfl
          rw [if_neg this, if_neg (by omega)]

/-- A run of loads that does not fit raises MemOutOfRange at the first address above 0xFFF (D7). -/
theorem loadRegs_error (count : Nat) : ∀ (s : State) (a i : Nat), 0x1000 < a + count → count ≠ 0 →
    loadRegs s a i count = .error (.memOutOfRange (max a 0x1000)) := by
  induction count with
  | zero => intro s a i _ h; exact absurd rfl h
  | succ n ih =>
    intro s a i h _
    rw [loadRegs, memRead_eq]
    by_cases ha : a < 0x1000
    · rw [if_pos ha, show max a 0x1000 = max (a + 1) 0x1000 by omega]
      exact ih _ (a + 1) (i + 1) (by omega) (by omega)
    · rw [if_neg ha, show max a 0x1000 = a by omega]

/-! ### The bytes stored -/

@[simp] theorem decimalDigits_length (b : Byte) : (decimalDigits b).length = 3 := rfl

@[simp] theorem regsUpTo_length (s : State) (x : RegNum) : (regsUpTo s x).length = x.toNat + 1 := by
  simp [regsUpTo]

theorem regsUpTo_getElem (s : State) (x : RegNum) (k : Nat) (h : k < (regsUpTo s x).length) :
    (regsUpTo s x)[k] = s.getV (BitVec.ofNat 4 k) := by
  simp [regsUpTo]

/-! ### The stack -/

/-- CALL's push (R132). -/
theorem pushReturn_ok {s : State} (h : s.sp.val < 16) :
    pushReturn s = .ok (s.setStack (s.stack.set s.sp.val s.pc h) ⟨s.sp.val + 1, by omega⟩) := by
  rw [pushReturn, dif_pos h]

theorem pushReturn_error {s : State} (h : s.sp.val = 16) : pushReturn s = .error (.stackOverflow (s.pc - 2)) := by
  rw [pushReturn, dif_neg (by omega)]

/-- RET's pop (R130). -/
theorem popReturn_ok {s : State} (h : 0 < s.sp.val) :
    popReturn s = .ok ((s.setStack s.stack ⟨s.sp.val - 1, by omega⟩).setPc (s.stack[s.sp.val - 1]'(by omega))) := by
  rw [popReturn, dif_pos h]

theorem popReturn_error {s : State} (h : s.sp.val = 0) : popReturn s = .error (.stackUnderflow (s.pc - 2)) := by
  rw [popReturn, dif_neg (by omega)]

/-! ### Skips and keys -/

/-- A skip changes pc alone, and by 2 only where its condition holds (R133). -/
theorem skipIf_eq (c : Bool) (s : State) : skipIf c s = s.setPc (if c then s.pc + 2 else s.pc) := by
  cases c <;> rfl

theorem selectedKey_ok {s : State} {x : RegNum} (h : (s.getV x).toNat ≤ 15) :
    selectedKey s x = .ok (s.keys.getLsbD (s.getV x).toNat) := by
  rw [selectedKey, if_pos (by simp only [Config.nkeys]; omega)]

theorem selectedKey_error {s : State} {x : RegNum} (h : 15 < (s.getV x).toNat) :
    selectedKey s x = .error (.keyIndexOutOfRange (s.getV x)) := by
  rw [selectedKey, if_neg (by simp only [Config.nkeys]; omega)]

/-- The scan finds a pressed key below which none is pressed (R223). -/
theorem leastKey_some {keys : BitVec 16} {k : Nat} (h : leastKey keys = some k) :
    k < 16 ∧ keys.getLsbD k = true ∧ ∀ j < k, keys.getLsbD j = false := by
  rw [leastKey, List.find?_range_eq_some] at h
  simp only [Config.nkeys, List.mem_range, Bool.not_eq_eq_eq_not, Bool.not_true] at h
  exact ⟨h.2.1, h.1, h.2.2⟩

/-- The scan finds nothing when no key is pressed (R223). -/
theorem leastKey_none {keys : BitVec 16} (h : leastKey keys = none) : ∀ k < 16, keys.getLsbD k = false := by
  rw [leastKey, List.find?_eq_none] at h
  intro k hk
  simpa using h k (by simpa using hk)

theorem leastKey_eq_none_iff (keys : BitVec 16) : leastKey keys = none ↔ keys = 0 := by
  constructor
  · intro h
    apply BitVec.eq_of_getLsbD_eq
    intro i hi
    rw [leastKey_none h i hi]; simp
  · rintro rfl; decide

/-! ### Flags and timers -/

theorem flag_toNat (c : Bool) : (flag c).toNat = if c then 1 else 0 := by cases c <;> rfl

theorem tickDown_toNat (t : Byte) : (tickDown t).toNat = t.toNat - 1 := by
  unfold tickDown
  split
  · next h => subst h; rfl
  · next h =>
    have : t.toNat ≠ 0 := fun e => h (BitVec.eq_of_toNat_eq (by simpa using e))
    rw [BitVec.toNat_sub, show (1 : Byte).toNat = 1 from rfl]
    have := t.isLt
    omega

/-! ### Fetch and step -/

/-- The fetch in range: two bytes, the first the high byte (R53, R111). -/
theorem fetch_ok {s : State} (h : s.pc.toNat ≤ 0xFFE) :
    fetch s = .ok (wordOfBytes (s.mem.peek s.pc.toNat) (s.mem.peek (s.pc.toNat + 1))) := by
  rw [fetch, if_pos (by simp only [Config.memSize]; omega)]

theorem fetch_error {s : State} (h : 0xFFE < s.pc.toNat) : fetch s = .error (.fetchOutOfRange s.pc) := by
  rw [fetch, if_neg (by simp only [Config.memSize]; omega)]

/-- What a step that answers a next state did: the latch was clear, a word was fetched and decoded, the handler ran on
the state with pc advanced and answered, and the tick and the next inputs followed (R110). -/
theorem step_next {s t : State} (h : step s = .next t) :
    ∃ i u, s.faulted = none ∧ s.pc.toNat ≤ 0xFFE ∧
      decodeWord (wordOfBytes (s.mem.peek s.pc.toNat) (s.mem.peek (s.pc.toNat + 1))) = some i ∧
      exec i s.advance = .next u ∧ t = u.tick.nextInputs := by
  unfold step cycle at h
  cases hf : s.faulted with
  | some f => simp [hf] at h
  | none =>
    by_cases hp : s.pc.toNat ≤ 0xFFE
    · simp only [hf, fetch_ok hp] at h
      cases hd : decodeWord (wordOfBytes (s.mem.peek s.pc.toNat) (s.mem.peek (s.pc.toNat + 1))) with
      | none => simp [hd, raise] at h
      | some i =>
        simp only [hd] at h
        cases he : exec i s.advance with
        | next u =>
          simp only [he, endStep, Host.Outcome.next.injEq] at h
          exact ⟨i, u, rfl, hp, rfl, he, h.symm⟩
        | fault f => simp [he, endStep] at h
        | refused r => simp [he, endStep] at h
    · simp [hf, fetch_error (by omega : 0xFFE < s.pc.toNat), raise] at h

/-- A step in range with the latch clear runs the decoded instruction (R110). -/
theorem step_eq {s : State} {i : Instr} (hf : s.faulted = none) (hp : s.pc.toNat ≤ 0xFFE)
    (hd : decodeWord (wordOfBytes (s.mem.peek s.pc.toNat) (s.mem.peek (s.pc.toNat + 1))) = some i) :
    step s = endStep (exec i s.advance) := by
  simp [step, cycle, hf, fetch_ok hp, hd]

theorem step_latched {s : State} {f : Fault} (h : s.faulted = some f) : step s = .refused (.alreadyFaulted f) := by
  simp [step, cycle, h]

end Sys2Proof.Machine
end

