-- ==== Sys2Proof/Laws/Display.lean ====
section
/-! SUPPORT. The framebuffer unit: what one flipped cell, one sprite row and a whole sprite do to the picture and to the
collision flag, and where the first fault is (44_display R201, R203). -/

namespace Sys2Proof.Machine

theorem pixelAt_blank (row col : Nat) : pixelAt (Vector.replicate 32 0) row col = false := by
  unfold pixelAt; split <;> simp

/-- A flipped cell inverts one pixel (R201). -/
theorem pixelAt_flip (c : Canvas) (k : GridCell) (row col : Nat) :
    pixelAt (c.flip k).fb row col = (pixelAt c.fb row col ^^ (decide (row = k.1.val) && decide (col = k.2.val))) := by
  obtain ⟨⟨r, hr⟩, ⟨d, hd⟩⟩ := k
  unfold pixelAt Canvas.flip
  by_cases h : row < 32
  · simp only [dif_pos h]
    by_cases e : row = r
    · subst e
      simp only [Vector.getElem_set_self, BitVec.getLsbD_xor, BitVec.getLsbD_twoPow, decide_true, Bool.true_and]
      congr 1
      by_cases e2 : col = d
      · subst e2; simp [hd]
      · simp [e2, Ne.symm e2]
    · simp [Ne.symm e, e]
  · have : row ≠ r := by omega
    simp [h, this]

/-- A set bit on the grid flips its cell (R201). -/
theorem plot_ok (c : Canvas) {cx cy : Nat} (hy : cy < 32) (hx : cx < 64) :
    c.plot cx cy = .ok (c.flip (⟨cy, hy⟩, ⟨cx, hx⟩)) := by
  simp [Canvas.plot, targetCell, hy, hx]

/-- A set bit off the grid raises DrawOutOfBounds (R203). -/
theorem plot_error (c : Canvas) {cx cy : Nat} (h : ¬ (cx ≤ 63 ∧ cy ≤ 31)) :
    c.plot cx cy = .error (.drawOutOfBounds cx cy) := by
  have h' : ¬ (cy < 32 ∧ cx < 64) := by omega
  simp [Canvas.plot, targetCell, h']

/-- The loop over columns goes on from where it stands. -/
theorem drawCols_append (b : Byte) (px cy : Nat) (l1 l2 : List Nat) : ∀ c : Canvas,
    drawCols b px cy (l1 ++ l2) c =
      match drawCols b px cy l1 c with
      | .ok c' => drawCols b px cy l2 c'
      | .error f => .error f := by
  induction l1 with
  | nil => intro c; rfl
  | cons d t ih =>
    intro c
    simp only [List.cons_append, drawCols]
    split
    · cases c.plot (px + d) cy with
      | ok c' => exact ih c'
      | error f => rfl
    · exact ih c

/-- One sprite row drawn on the grid: each set bit inverts its pixel, and a pixel that was on is a collision (R201). -/
theorem drawCols_ok (b : Byte) (px cy : Nat) (cols : List Nat) : ∀ (c : Canvas), cols.Nodup →
    (∀ d ∈ cols, spriteBit b d = true → px + d ≤ 63 ∧ cy ≤ 31) →
    ∃ c', drawCols b px cy cols c = .ok c' ∧
      (∀ row col, pixelAt c'.fb row col =
        (pixelAt c.fb row col ^^ (decide (row = cy) && cols.any fun d => spriteBit b d && decide (col = px + d)))) ∧
      c'.hit = (c.hit || cols.any fun d => spriteBit b d && pixelAt c.fb cy (px + d)) := by
  induction cols with
  | nil => intro c _ _; exact ⟨c, rfl, by simp, by simp⟩
  | cons d t ih =>
    intro c hn hg
    obtain ⟨hd, ht⟩ := List.nodup_cons.1 hn
    have hg' : ∀ e ∈ t, spriteBit b e = true → px + e ≤ 63 ∧ cy ≤ 31 := fun e he => hg e (List.mem_cons_of_mem _ he)
    by_cases hb : spriteBit b d = true
    · obtain ⟨hx, hy⟩ := hg d List.mem_cons_self hb
      obtain ⟨c', h1, h2, h3⟩ := ih (c.flip (⟨cy, by omega⟩, ⟨px + d, by omega⟩)) ht hg'
      refine ⟨c', ?_, fun row col => ?_, ?_⟩
      · rw [drawCols, if_pos hb, plot_ok c (by omega) (by omega)]; exact h1
      · rw [h2, pixelAt_flip]
        simp only [List.any_cons, hb, Bool.true_and]
        by_cases hr : row = cy
        · by_cases hc : col = px + d
          · have : (t.any fun e => spriteBit b e && decide (col = px + e)) = false := by
              rw [List.any_eq_false]
              intro e he
              have : e ≠ d := fun h => hd (h ▸ he)
              simp only [Bool.and_eq_true, decide_eq_true_eq, not_and]
              omega
            subst hr hc
            rw [this]; simp
          · simp [hr, hc]
        · simp [hr]
      · rw [h3]
        simp only [List.any_cons, hb, Bool.true_and, Canvas.flip]
        have : (t.any fun e => spriteBit b e && pixelAt (c.flip (⟨cy, by omega⟩, ⟨px + d, by omega⟩)).fb cy (px + e)) =
            t.any fun e => spriteBit b e && pixelAt c.fb cy (px + e) := by
          rw [Bool.eq_iff_iff]
          simp only [List.any_eq_true]
          refine exists_congr fun e => and_congr_right fun he => ?_
          have : e ≠ d := fun h => hd (h ▸ he)
          simp [pixelAt_flip, this]
        simp only [Canvas.flip] at this
        rw [this, Bool.or_assoc]
    · obtain ⟨c', h1, h2, h3⟩ := ih c ht hg'
      refine ⟨c', ?_, fun row col => ?_, ?_⟩
      · rw [drawCols, if_neg hb]; exact h1
      · rw [h2]; simp [hb]
      · rw [h3]; simp [hb]

/-- The first set bit of a row off the grid is the fault (R203, R250). -/
theorem drawCols_error (b : Byte) (px cy : Nat) {k : Nat} (hk : k < 8) (hb : spriteBit b k = true)
    (hoff : ¬ (px + k ≤ 63 ∧ cy ≤ 31)) (hon : ∀ d < k, spriteBit b d = true → px + d ≤ 63 ∧ cy ≤ 31) (c : Canvas) :
    drawCols b px cy (List.range 8) c = .error (.drawOutOfBounds (px + k) cy) := by
  have e : List.range 8 = List.range k ++ k :: (List.range' (k + 1) (8 - (k + 1))) := by
    interval_cases k <;> rfl
  obtain ⟨c', h1, -⟩ := drawCols_ok b px cy (List.range k) c List.nodup_range
    fun d hd => hon d (List.mem_range.1 hd)
  rw [e, drawCols_append, h1]
  simp only [drawCols, if_pos hb, plot_error c' hoff]

/-- The loop over rows goes on from where it stands. -/
theorem drawRows_append (s : State) (px py : Nat) (l1 l2 : List Nat) : ∀ c : Canvas,
    drawRows s px py (l1 ++ l2) c =
      match drawRows s px py l1 c with
      | .ok c' => drawRows s px py l2 c'
      | .error f => .error f := by
  induction l1 with
  | nil => intro c; rfl
  | cons r t ih =>
    intro c
    simp only [List.cons_append, drawRows]
    cases memRead s (s.index.toNat + r) with
    | error f => rfl
    | ok b =>
      cases h : drawCols b px (py + r) (List.range 8) c with
      | error f => simp [h]
      | ok c' => simpa [h] using ih c'

/-- Sprite row `r` covers a column (R201, R202). -/
def rowCovers (s : State) (px r col : Nat) : Bool :=
  (List.range 8).any fun d => spriteBit (spriteByte s r) d && decide (col = px + d)

/-- Sprite row `r` meets a pixel that is on in the picture `fb` (R201). -/
def rowMeets (s : State) (fb : Vector (BitVec 64) 32) (px py r : Nat) : Bool :=
  (List.range 8).any fun d => spriteBit (spriteByte s r) d && pixelAt fb (py + r) (px + d)

/-- A sprite drawn on the grid (R201). -/
theorem drawRows_ok (s : State) (px py : Nat) (rows : List Nat) : ∀ (c : Canvas), rows.Nodup →
    (∀ r ∈ rows, s.index.toNat + r ≤ 0xFFF ∧
      ∀ d < 8, spriteBit (spriteByte s r) d = true → px + d ≤ 63 ∧ py + r ≤ 31) →
    ∃ c', drawRows s px py rows c = .ok c' ∧
      (∀ row col, pixelAt c'.fb row col =
        (pixelAt c.fb row col ^^ rows.any fun r => decide (row = py + r) && rowCovers s px r col)) ∧
      c'.hit = (c.hit || rows.any fun r => rowMeets s c.fb px py r) := by
  induction rows with
  | nil => intro c _ _; exact ⟨c, rfl, by simp, by simp⟩
  | cons r t ih =>
    intro c hn hg
    obtain ⟨hr, ht⟩ := List.nodup_cons.1 hn
    obtain ⟨hm, hrow⟩ := hg r List.mem_cons_self
    obtain ⟨c1, a1, a2, a3⟩ := drawCols_ok (spriteByte s r) px (py + r) (List.range 8) c List.nodup_range
      fun d hd => hrow d (List.mem_range.1 hd)
    obtain ⟨c', b1, b2, b3⟩ := ih c1 ht fun q hq => hg q (List.mem_cons_of_mem _ hq)
    refine ⟨c', ?_, fun row col => ?_, ?_⟩
    · rw [drawRows, memRead_eq, if_pos (by omega)]
      have : s.mem.peek (s.index.toNat + r) = spriteByte s r := rfl
      simp only [this, a1]
      exact b1
    · rw [b2, a2]
      simp only [List.any_cons, rowCovers]
      by_cases h : row = py + r
      · have : (t.any fun q => decide (row = py + q) &&
            (List.range 8).any fun d => spriteBit (spriteByte s q) d && decide (col = px + d)) = false := by
          rw [List.any_eq_false]
          intro q hq
          have : q ≠ r := fun e => hr (e ▸ hq)
          have : row ≠ py + q := by omega
          simp [this]
        rw [this]; simp
      · simp [h]
    · rw [b3, a3]
      simp only [List.any_cons]
      have : (t.any fun q => rowMeets s c1.fb px py q) = t.any fun q => rowMeets s c.fb px py q := by
        rw [Bool.eq_iff_iff]
        simp only [List.any_eq_true]
        refine exists_congr fun q => and_congr_right fun hq => ?_
        have hne : q ≠ r := fun e => hr (e ▸ hq)
        have : rowMeets s c1.fb px py q = rowMeets s c.fb px py q := by
          unfold rowMeets
          congr 1; funext d
          rw [a2]; simp [hne]
        rw [this]
      rw [this, Bool.or_assoc]; rfl

/-- The first row that cannot be drawn gives the fault: its address, or its first set bit off the grid (R250). -/
theorem drawRows_error (s : State) (px py : Nat) {n r : Nat} (hrn : r < n)
    (hon : ∀ q < r, s.index.toNat + q ≤ 0xFFF ∧
      ∀ d < 8, spriteBit (spriteByte s q) d = true → px + d ≤ 63 ∧ py + q ≤ 31) (c : Canvas) :
    (0xFFF < s.index.toNat + r →
      drawRows s px py (List.range n) c = .error (.memOutOfRange (s.index.toNat + r))) ∧
    (s.index.toNat + r ≤ 0xFFF → ∀ k < 8, spriteBit (spriteByte s r) k = true → ¬ (px + k ≤ 63 ∧ py + r ≤ 31) →
      (∀ d < k, spriteBit (spriteByte s r) d = true → px + d ≤ 63 ∧ py + r ≤ 31) →
      drawRows s px py (List.range n) c = .error (.drawOutOfBounds (px + k) (py + r))) := by
  have e : List.range n = List.range r ++ r :: (List.range' (r + 1) (n - (r + 1))) := by
    rw [List.range_eq_range', List.range_eq_range']
    rw [show (r :: List.range' (r + 1) (n - (r + 1))) = List.range' (0 + r) (n - r) by
      rw [show n - r = (n - (r + 1)) + 1 by omega, List.range'_succ]; simp]
    rw [List.range'_append_1]; congr 1; omega
  obtain ⟨c', h1, -⟩ := drawRows_ok s px py (List.range r) c List.nodup_range fun q hq => hon q (List.mem_range.1 hq)
  constructor
  · intro h
    rw [e, drawRows_append, h1]
    simp only [drawRows, memRead_eq]
    rw [if_neg (by omega)]
  · intro h k hk hb hoff hd
    rw [e, drawRows_append, h1]
    simp only [drawRows, memRead_eq]
    rw [if_pos (by omega)]
    have : s.mem.peek (s.index.toNat + r) = spriteByte s r := rfl
    simp only [this, drawCols_error _ _ _ hk hb hoff hd]

end Sys2Proof.Machine
end

