-- ==== Sys2Proof/Laws/PerInstr.lean ====
section
/-! SUPPORT. Per instruction: the standard spelling stands in the instruction's own row of the opcode table (30_encoding
R86 to R90, R95), and in no other. One lemma per constructor. -/

namespace Sys2Proof.Laws.F

/-- The encoded word selects the instruction's row, a row of the table, and no other row of it (R95). -/
def Statement (i : Instr) : Prop :=
  i.row ∈ opcodeTable ∧ i.row.selects (encodeWord i) = true ∧
    ∀ r ∈ opcodeTable, r.selects (encodeWord i) = true → r = i.row

/-- A row with the mask of a handler entry looks at the top nibble alone (R84). -/
theorem selects_op {m : String} {p w : Word} (op : BitVec 4) (hp : p = wordA op 0) :
    OpcodeRow.selects ⟨m, 0xF000, p⟩ w = decide (fieldOp w = op) := by
  subst hp
  rw [OpcodeRow.selects, and_mask_op, Bool.beq_eq_decide_eq]
  refine decide_eq_decide.2 ⟨fun h => ?_, fun h => by rw [h]⟩
  simpa using congrArg fieldOp h

/-- A row of a low-nibble family looks at the top and the low nibble (R85). -/
theorem selects_op_n {m : String} {p w : Word} (op : BitVec 4) (n : Nibble) (hp : p = wordXYN op 0 0 n) :
    OpcodeRow.selects ⟨m, 0xF00F, p⟩ w = decide (fieldOp w = op ∧ fieldN w = n) := by
  subst hp
  rw [OpcodeRow.selects, and_mask_op_n, Bool.beq_eq_decide_eq]
  refine decide_eq_decide.2 ⟨fun h => ?_, fun h => by rw [h.1, h.2]⟩
  exact ⟨by simpa using congrArg fieldOp h, by simpa using congrArg fieldN h⟩

/-- A row of family 0xF looks at the top nibble and the low byte (R85). -/
theorem selects_op_kk {m : String} {p w : Word} (op : BitVec 4) (kk : Byte) (hp : p = wordXK op 0 kk) :
    OpcodeRow.selects ⟨m, 0xF0FF, p⟩ w = decide (fieldOp w = op ∧ fieldKk w = kk) := by
  subst hp
  rw [OpcodeRow.selects, and_mask_op_kk, Bool.beq_eq_decide_eq]
  refine decide_eq_decide.2 ⟨fun h => ?_, fun h => by rw [h.1, h.2]⟩
  exact ⟨by simpa using congrArg fieldOp h, by simpa using congrArg fieldKk h⟩

/-- The rows' match sets are pairwise disjoint (R95): where two masked patterns agree on the bits both masks keep, the
rows are one. -/
theorem rows_disjoint : ∀ r ∈ opcodeTable, ∀ q ∈ opcodeTable,
    r.pattern &&& q.mask = q.pattern &&& r.mask → r = q := by decide

/-- A word selects at most one row (R95). -/
theorem selects_unique {w : Word} {r q : OpcodeRow} (hr : r ∈ opcodeTable) (hq : q ∈ opcodeTable)
    (h1 : r.selects w = true) (h2 : q.selects w = true) : r = q := by
  simp only [OpcodeRow.selects, beq_iff_eq] at h1 h2
  refine rows_disjoint r hr q hq ?_
  rw [← h1, ← h2, BitVec.and_assoc, BitVec.and_assoc, BitVec.and_comm r.mask]

/-- The statement from its two first parts: uniqueness holds of every word. -/
theorem Statement.of_selects {i : Instr} (h1 : i.row ∈ opcodeTable) (h2 : i.row.selects (encodeWord i) = true) :
    Statement i :=
  ⟨h1, h2, fun _ hr h => selects_unique hr h1 h h2⟩

/-- An instruction's row stands in the table. -/
theorem row_mem (i : Instr) : i.row ∈ opcodeTable := by
  cases i <;> simp [opcodeTable, Instr.row]

theorem cls : Statement (.cls) :=
  .of_selects (row_mem _) (by decide)

theorem ret : Statement (.ret) :=
  .of_selects (row_mem _) (by decide)

theorem jp (nnn : Addr12) : Statement (.jp nnn) :=
  .of_selects (row_mem _) (by rw [Instr.row, selects_op 0x1 (by decide)]; simp [encodeWord])

theorem call (nnn : Addr12) : Statement (.call nnn) :=
  .of_selects (row_mem _) (by rw [Instr.row, selects_op 0x2 (by decide)]; simp [encodeWord])

theorem seImm (x : RegNum) (kk : Byte) : Statement (.seImm x kk) :=
  .of_selects (row_mem _) (by rw [Instr.row, selects_op 0x3 (by decide)]; simp [encodeWord])

theorem sneImm (x : RegNum) (kk : Byte) : Statement (.sneImm x kk) :=
  .of_selects (row_mem _) (by rw [Instr.row, selects_op 0x4 (by decide)]; simp [encodeWord])

theorem seReg (x y : RegNum) : Statement (.seReg x y) :=
  .of_selects (row_mem _) (by rw [Instr.row, selects_op 0x5 (by decide)]; simp [encodeWord])

theorem ldImm (x : RegNum) (kk : Byte) : Statement (.ldImm x kk) :=
  .of_selects (row_mem _) (by rw [Instr.row, selects_op 0x6 (by decide)]; simp [encodeWord])

theorem addImm (x : RegNum) (kk : Byte) : Statement (.addImm x kk) :=
  .of_selects (row_mem _) (by rw [Instr.row, selects_op 0x7 (by decide)]; simp [encodeWord])

theorem ldReg (x y : RegNum) : Statement (.ldReg x y) :=
  .of_selects (row_mem _) (by rw [Instr.row, selects_op_n 0x8 0x0 (by decide)]; simp [encodeWord])

theorem orReg (x y : RegNum) : Statement (.orReg x y) :=
  .of_selects (row_mem _) (by rw [Instr.row, selects_op_n 0x8 0x1 (by decide)]; simp [encodeWord])

theorem andReg (x y : RegNum) : Statement (.andReg x y) :=
  .of_selects (row_mem _) (by rw [Instr.row, selects_op_n 0x8 0x2 (by decide)]; simp [encodeWord])

theorem xorReg (x y : RegNum) : Statement (.xorReg x y) :=
  .of_selects (row_mem _) (by rw [Instr.row, selects_op_n 0x8 0x3 (by decide)]; simp [encodeWord])

theorem addReg (x y : RegNum) : Statement (.addReg x y) :=
  .of_selects (row_mem _) (by rw [Instr.row, selects_op_n 0x8 0x4 (by decide)]; simp [encodeWord])

theorem subReg (x y : RegNum) : Statement (.subReg x y) :=
  .of_selects (row_mem _) (by rw [Instr.row, selects_op_n 0x8 0x5 (by decide)]; simp [encodeWord])

theorem shr (x : RegNum) : Statement (.shr x) :=
  .of_selects (row_mem _) (by rw [Instr.row, selects_op_n 0x8 0x6 (by decide)]; simp [encodeWord])

theorem subnReg (x y : RegNum) : Statement (.subnReg x y) :=
  .of_selects (row_mem _) (by rw [Instr.row, selects_op_n 0x8 0x7 (by decide)]; simp [encodeWord])

theorem shl (x : RegNum) : Statement (.shl x) :=
  .of_selects (row_mem _) (by rw [Instr.row, selects_op_n 0x8 0xe (by decide)]; simp [encodeWord])

theorem sneReg (x y : RegNum) : Statement (.sneReg x y) :=
  .of_selects (row_mem _) (by rw [Instr.row, selects_op 0x9 (by decide)]; simp [encodeWord])

theorem ldI (nnn : Addr12) : Statement (.ldI nnn) :=
  .of_selects (row_mem _) (by rw [Instr.row, selects_op 0xa (by decide)]; simp [encodeWord])

theorem jpV0 (nnn : Addr12) : Statement (.jpV0 nnn) :=
  .of_selects (row_mem _) (by rw [Instr.row, selects_op 0xb (by decide)]; simp [encodeWord])

theorem rnd (x : RegNum) (kk : Byte) : Statement (.rnd x kk) :=
  .of_selects (row_mem _) (by rw [Instr.row, selects_op 0xc (by decide)]; simp [encodeWord])

theorem drw (x y : RegNum) (n : Nibble) : Statement (.drw x y n) :=
  .of_selects (row_mem _) (by rw [Instr.row, selects_op 0xd (by decide)]; simp [encodeWord])

theorem skp (x : RegNum) : Statement (.skp x) :=
  .of_selects (row_mem _) (by rw [Instr.row, selects_op_n 0xE 0xE (by decide)]; simp [encodeWord])

theorem sknp (x : RegNum) : Statement (.sknp x) :=
  .of_selects (row_mem _) (by rw [Instr.row, selects_op_n 0xE 0x1 (by decide)]; simp [encodeWord])

theorem ldVxDt (x : RegNum) : Statement (.ldVxDt x) :=
  .of_selects (row_mem _) (by rw [Instr.row, selects_op_kk 0xF 0x7 (by decide)]; simp [encodeWord])

theorem ldVxK (x : RegNum) : Statement (.ldVxK x) :=
  .of_selects (row_mem _) (by rw [Instr.row, selects_op_kk 0xF 0xa (by decide)]; simp [encodeWord])

theorem ldDtVx (x : RegNum) : Statement (.ldDtVx x) :=
  .of_selects (row_mem _) (by rw [Instr.row, selects_op_kk 0xF 0x15 (by decide)]; simp [encodeWord])

theorem ldStVx (x : RegNum) : Statement (.ldStVx x) :=
  .of_selects (row_mem _) (by rw [Instr.row, selects_op_kk 0xF 0x18 (by decide)]; simp [encodeWord])

theorem addI (x : RegNum) : Statement (.addI x) :=
  .of_selects (row_mem _) (by rw [Instr.row, selects_op_kk 0xF 0x1e (by decide)]; simp [encodeWord])

theorem ldF (x : RegNum) : Statement (.ldF x) :=
  .of_selects (row_mem _) (by rw [Instr.row, selects_op_kk 0xF 0x29 (by decide)]; simp [encodeWord])

theorem ldB (x : RegNum) : Statement (.ldB x) :=
  .of_selects (row_mem _) (by rw [Instr.row, selects_op_kk 0xF 0x33 (by decide)]; simp [encodeWord])

theorem stRegs (x : RegNum) : Statement (.stRegs x) :=
  .of_selects (row_mem _) (by rw [Instr.row, selects_op_kk 0xF 0x55 (by decide)]; simp [encodeWord])

theorem ldRegs (x : RegNum) : Statement (.ldRegs x) :=
  .of_selects (row_mem _) (by rw [Instr.row, selects_op_kk 0xF 0x65 (by decide)]; simp [encodeWord])

end Sys2Proof.Laws.F
end

