-- ==== Sys2Proof/Laws/Run.lean ====
section
/-! SUPPORT. Idle states, and a run one step at a time (70_reset_and_hazards R288, R289). -/

namespace Sys2Proof.Machine

/-- All an idle state says: no fault is latched, and pc and the word there. -/
theorem State.idle_iff (s : State) :
    s.idle = true ↔ s.faulted = none ∧ s.pc.toNat ≤ 0xFFE ∧
      wordOfBytes (s.mem.peek s.pc.toNat) (s.mem.peek (s.pc.toNat + 1)) = encodeWord (.jp (s.pc.setWidth 12)) := by
  unfold State.idle
  by_cases hp : s.pc.toNat ≤ 0xFFE
  · simp [fetch_ok hp, hp]
  · simp [fetch_error (by omega : 0xFFE < s.pc.toNat), hp]

/-- Idleness looks at the latch, pc and memory only. -/
theorem State.idle_congr {s t : State} (hf : t.faulted = s.faulted) (hp : t.pc = s.pc) (hm : t.mem = s.mem) :
    t.idle = s.idle := by
  rw [Bool.eq_iff_iff, State.idle_iff, State.idle_iff, hf, hp, hm]

/-- A run starts with a successful load on the reset state (R288). -/
theorem Run.after_zero_eq_some {r : Run} {t : State} : r.after 0 = some t ↔ r.launch = .ok t := by
  unfold Run.after
  cases r.launch <;> simp

/-- A run goes on exactly by a step that answers a next state (R288). -/
theorem Run.after_succ_eq_some {r : Run} {k : Nat} {t : State} :
    r.after (k + 1) = some t ↔
      ∃ s, r.after k = some s ∧ stepWith (r.inputs k).keys (r.inputs k).rnd s = .next t := by
  rw [Run.after]
  cases r.after k with
  | none => simp
  | some s => cases h : stepWith (r.inputs k).keys (r.inputs k).rnd s <;> simp [h]

end Sys2Proof.Machine
end

