-- ==== Sys2Proof/Tests/Slice0.lean ====
section
/-! SUPPORT. Tests of single steps against spec/95_test_vectors.md, decode tests against the encodings of 30_encoding,
ill-formed terms, and a witness for the hypotheses of every statement. -/

namespace Sys2Proof.Tests

open Sys2Proof Sys2Proof.Machine

/-! ### Small states -/

/-- Reset with a word where the next step fetches it. -/
def start (w : Nat) : State := State.reset.withFetchWord 16 w

/-- The same at another pc. -/
def startAt (pc : Word) (w : Nat) : State := State.withFetchWord { State.reset with pc := pc } 16 w

/-- Registers of a state changed. -/
def regs (s : State) (l : List (RegNum × Byte)) : State := l.foldl (fun t p => t.setV p.1 p.2) s

/-- Bytes of a state's memory changed. -/
def bytes (s : State) (a : Nat) (l : List Byte) : State := s.setMem (s.mem.pokes a l)

/-- Pixels of a state turned on, each a row and its bits. -/
def pixels (s : State) (l : List (Fin 32 × BitVec 64)) : State :=
  l.foldl (fun t p => t.setFb (t.fb.set p.1.val p.2)) s

/-- What a step's next state shows. -/
def after {α : Type} (s : State) (f : State → α) : Option α :=
  match step s with
  | .next t => some (f t)
  | _ => none

/-- The fault a step raises. -/
def faultOf (s : State) : Option Fault :=
  match step s with
  | .fault f => some f
  | _ => none

/-- What a handler's next state shows. -/
def afterExec {α : Type} (i : Instr) (s : State) (f : State → α) : Option α :=
  match exec i s with
  | .next t => some (f t)
  | _ => none

/-! ### Decoding: words written out from 30_encoding R82 and R86 to R90 -/

theorem test_decode_cls : decodeWord 0x00E0 = some .cls := by decide
theorem test_decode_ret : decodeWord 0x00EE = some .ret := by decide
theorem test_decode_jp : decodeWord 0b0001101010111100 = some (.jp 0xABC) := by decide
theorem test_decode_call : decodeWord 0b0010101010111100 = some (.call 0xABC) := by decide
theorem test_decode_seImm : decodeWord 0b0011101001011100 = some (.seImm 0xA 0x5C) := by decide
theorem test_decode_sneImm : decodeWord 0b0100101001011100 = some (.sneImm 0xA 0x5C) := by decide
theorem test_decode_seReg : decodeWord 0b0101101001010000 = some (.seReg 0xA 0x5) := by decide
theorem test_decode_ldImm : decodeWord 0b0110101001011100 = some (.ldImm 0xA 0x5C) := by decide
theorem test_decode_addImm : decodeWord 0b0111101001011100 = some (.addImm 0xA 0x5C) := by decide
theorem test_decode_ldReg : decodeWord 0b1000101001010000 = some (.ldReg 0xA 0x5) := by decide
theorem test_decode_orReg : decodeWord 0b1000101001010001 = some (.orReg 0xA 0x5) := by decide
theorem test_decode_andReg : decodeWord 0b1000101001010010 = some (.andReg 0xA 0x5) := by decide
theorem test_decode_xorReg : decodeWord 0b1000101001010011 = some (.xorReg 0xA 0x5) := by decide
theorem test_decode_addReg : decodeWord 0b1000101001010100 = some (.addReg 0xA 0x5) := by decide
theorem test_decode_subReg : decodeWord 0b1000101001010101 = some (.subReg 0xA 0x5) := by decide
theorem test_decode_shr : decodeWord 0b1000101001010110 = some (.shr 0xA) := by decide
theorem test_decode_subnReg : decodeWord 0b1000101001010111 = some (.subnReg 0xA 0x5) := by decide
theorem test_decode_shl : decodeWord 0b1000101001011110 = some (.shl 0xA) := by decide
theorem test_decode_sneReg : decodeWord 0b1001101001010000 = some (.sneReg 0xA 0x5) := by decide
theorem test_decode_ldI : decodeWord 0b1010101001011100 = some (.ldI 0xA5C) := by decide
theorem test_decode_jpV0 : decodeWord 0b1011101001011100 = some (.jpV0 0xA5C) := by decide
theorem test_decode_rnd : decodeWord 0b1100101001011100 = some (.rnd 0xA 0x5C) := by decide
theorem test_decode_drw : decodeWord 0b1101101001011100 = some (.drw 0xA 0x5 0xC) := by decide
theorem test_decode_skp : decodeWord 0b1110101010011110 = some (.skp 0xA) := by decide
theorem test_decode_sknp : decodeWord 0b1110101010100001 = some (.sknp 0xA) := by decide
theorem test_decode_ldVxDt : decodeWord 0b1111101000000111 = some (.ldVxDt 0xA) := by decide
theorem test_decode_ldVxK : decodeWord 0b1111101000001010 = some (.ldVxK 0xA) := by decide
theorem test_decode_ldDtVx : decodeWord 0b1111101000010101 = some (.ldDtVx 0xA) := by decide
theorem test_decode_ldStVx : decodeWord 0b1111101000011000 = some (.ldStVx 0xA) := by decide
theorem test_decode_addI : decodeWord 0b1111101000011110 = some (.addI 0xA) := by decide
theorem test_decode_ldF : decodeWord 0b1111101000101001 = some (.ldF 0xA) := by decide
theorem test_decode_ldB : decodeWord 0b1111101000110011 = some (.ldB 0xA) := by decide
theorem test_decode_stRegs : decodeWord 0b1111101001010101 = some (.stRegs 0xA) := by decide
theorem test_decode_ldRegs : decodeWord 0b1111101001100101 = some (.ldRegs 0xA) := by decide

/-- The invalid words of T40-11 to T40-24 (R92, E12). -/
theorem test_decode_invalid :
    ([0x0001, 0x00E1, 0x0FFF, 0x8008, 0x801F, 0x8FFD, 0xE000, 0xE09F, 0xE0A0, 0xF000, 0xF0FF, 0xF034, 0xF056,
      0xFFFF] : List Word).map decodeWord = List.replicate 14 none := by decide

/-- Decoding reads two bytes, high byte first, and keeps the rest (R80, T40-01); fewer bytes are no instruction. -/
theorem test_decode_bytes :
    decode [0x12, 0x34, 0x56] = .ok (.jp 0x234, [0x56]) ∧ decode [] = .error (.truncated 0) ∧
    decode [0x12] = .error (.truncated 1) := by decide

/-- The examples of R158, R160 and R96's spellings. -/
theorem test_encode_standard :
    encode (.shr 3) = [0x83, 0x06] ∧ encode (.shl 3) = [0x83, 0x0E] ∧ encode (.seReg 1 2) = [0x51, 0x20] ∧
    (Instr.drw 0 1 5).asm = "DRW V0,V1,0x5" ∧ (Instr.ldRegs 0xA).asm = "LD VA,[I]" ∧
    (Instr.jpV0 0x30F).asm = "JP V0,0x30F" := by decide

theorem test_decodeTableWord : decodeTableWord 16 0x6005 = some (.ldImm 0 5) ∧ decodeTableWord 16 0x0001 = none := by
  decide

/-! ### Ill-formed terms -/

/-- An operand one past its field's width is refused, in each field of R83. -/
theorem smoke_operands :
    operandsFit [(15, 4)] = true ∧ operandsFit [(16, 4)] = false ∧ operandsFit [(3, 4), (256, 8)] = false ∧
    operandsFit [(4096, 12)] = false ∧ operandsFit [(1, 4), (2, 4), (16, 4)] = false ∧
    Instr.wellFormed (.drw 15 15 15) = true := by decide

/-- A word no row selects is no legal word, in each family with holes (R92). -/
theorem smoke_words :
    wordLegal 0x00EE = true ∧ wordLegal 0x0001 = false ∧ wordLegal 0x8008 = false ∧ wordLegal 0xE000 = false ∧
    wordLegal 0xF105 = false := by decide

/-- An image of 3584 bytes fits, one of 3585 does not (R281, E2). -/
theorem smoke_image (b : Byte) :
    imageFits (List.replicate 3584 b) = true ∧ imageFits (List.replicate 3585 b) = false := by
  unfold imageFits
  rw [List.length_replicate, List.length_replicate]
  decide

/-- Memory out of form: out of order, an address twice, a zero byte listed, an address above 0xFFF. -/
theorem smoke_memory :
    Memory.wf [(0x300, 1), (0x301, 2)] = true ∧ Memory.wf [(0x301, 2), (0x300, 1)] = false ∧
    Memory.wf [(0x300, 1), (0x300, 2)] = false ∧ Memory.wf [(0x300, 0)] = false ∧ Memory.wf [(0x1000, 1)] = false := by decide

/-! ### The step -/

/-- E1: reset. -/
theorem test_reset :
    State.reset.pc = 0x200 ∧ State.reset.sp = 0 ∧ State.reset.v = Vector.replicate 16 0 ∧
    (List.range 5).map (fun k => State.reset.mem.peek (0x50 + k)) = [0xF0, 0x90, 0x90, 0x90, 0xF0] ∧
    (List.range 5).map (fun k => State.reset.mem.peek (0x9B + k)) = [0xF0, 0x80, 0xF0, 0x80, 0x80] ∧
    State.reset.mem.peek 0x4F = 0 ∧ State.reset.mem.peek 0xA0 = 0 := by decide

/-- XLEN and ILEN of R5 are the widths of the word types. -/
theorem test_widths : Byte = BitVec Config.xlen ∧ Word = BitVec Config.ilen := ⟨rfl, rfl⟩

/-- A font of another kind fills the same 80 bytes and no other (R31, R35). -/
theorem test_resetWith :
    (State.resetWith (Vector.replicate 16 (Vector.replicate 5 0xAA))).mem.peek 0x9F = 0xAA ∧
    (State.resetWith (Vector.replicate 16 (Vector.replicate 5 0xAA))).mem.peek 0x4F = 0 ∧
    (State.resetWith (Vector.replicate 16 (Vector.replicate 5 0xAA))).mem.peek 0xA0 = 0 := by decide

/-- T40-05: both timers tick after the handler. -/
theorem test_tick : after { start 0x6000 with dt := 255, st := 2 } (fun t => (t.dt, t.st)) = some (254, 1) := by decide

/-- T40-04: no tick below zero. -/
theorem test_tick_floor : after (start 0x6000) (fun t => (t.dt, t.st)) = some (0, 0) := by decide

/-- T40-02, T40-07: odd pc, and the last fetchable address. -/
theorem test_fetch_edges :
    after (bytes { State.reset with pc := 0x201 } 0x201 [0x60, 0x07]) (fun t => (t.pc, t.getV 0)) = some (0x203, 7) ∧
    after (startAt 0xFFE 0x6001) (fun t => (t.pc, t.getV 0)) = some (0x1000, 1) := by decide

/-- T40-08, T40-10. -/
theorem test_fetch_faults :
    faultOf { State.reset with pc := 0xFFF } = some (.fetchOutOfRange 0xFFF) ∧
    faultOf { State.reset with pc := 0x10FE } = some (.fetchOutOfRange 0x10FE) := by decide

/-- T40-11, T30-15. -/
theorem test_invalid_opcode :
    faultOf (start 0x0001) = some (.invalidOpcode 0x200 0x0001) ∧
    faultOf (start 0xF105) = some (.invalidOpcode 0x200 0xF105) := by decide

/-- T70-07, T70-08: a latched machine refuses, before and after a load. -/
theorem test_latched :
    step (afterFault (.invalidOpcode 0x200 1) (start 0x6000)) = .refused (.alreadyFaulted (.invalidOpcode 0x200 1)) ∧
    step (afterLoad (afterFault (.invalidOpcode 0x200 1) State.reset)
      (load [0x12, 0x00] (afterFault (.invalidOpcode 0x200 1) State.reset))) =
      .refused (.alreadyFaulted (.invalidOpcode 0x200 1)) := ⟨rfl, rfl⟩

/-- T70-03: an odd-length image. -/
theorem test_load :
    (match load [0x60, 0x05, 0x30] State.reset with
      | .ok t => some ((List.range 4).map fun k => t.mem.peek (0x200 + k), t.pc)
      | .failed _ => none) = some ([0x60, 0x05, 0x30, 0x00], 0x200) := by decide

/-- The fault codes of R240. -/
theorem test_fault_codes :
    State.reset.faultCode = 0 ∧ (afterFault (.stackOverflow 0x200) State.reset).faultCode = 5 := by decide

/-! ### Control transfer (T41) -/

theorem test_ret : after { startAt 0x302 0x00EE with sp := 1, stack := Vector.replicate 16 0x206 }
    (fun t => (t.pc, t.sp)) = some (0x206, 0) := by decide
theorem test_ret_empty : faultOf (start 0x00EE) = some (.stackUnderflow 0x200) := by decide
theorem test_jp : after (startAt 0x20A 0x1204) (fun t => t.pc) = some 0x204 := by decide
theorem test_call : after (startAt 0x204 0x2300) (fun t => (t.pc, t.sp, t.stack[0])) = some (0x300, 1, 0x206) := by decide
theorem test_call_full : faultOf { start 0x2ABC with sp := 16 } = some (.stackOverflow 0x200) := by decide
theorem test_seImm : after (regs (startAt 0x202 0x3005) [(0, 5)]) (fun t => t.pc) = some 0x206 := by decide
theorem test_seImm_not : after (regs (start 0x3006) [(0, 5)]) (fun t => t.pc) = some 0x202 := by decide
theorem test_sneImm : after (regs (start 0x4006) [(0, 5)]) (fun t => t.pc) = some 0x204 := by decide
theorem test_sneImm_not : after (regs (start 0x4005) [(0, 5)]) (fun t => t.pc) = some 0x202 := by decide
theorem test_seReg : after (regs (start 0x5120) [(1, 7), (2, 7)]) (fun t => t.pc) = some 0x204 := by decide
theorem test_seReg_not : after (regs (start 0x512F) [(1, 7), (2, 8)]) (fun t => t.pc) = some 0x202 := by decide
theorem test_sneReg : after (regs (start 0x9120) [(1, 7), (2, 8)]) (fun t => t.pc) = some 0x204 := by decide
theorem test_sneReg_not : after (regs (start 0x9120) [(1, 7), (2, 7)]) (fun t => t.pc) = some 0x202 := by decide
theorem test_jpV0 : after (regs (start 0xB512) [(0, 2), (5, 0x40)]) (fun t => t.pc) = some 0x514 := by decide
theorem test_jpV0_top : after (regs (start 0xBFFF) [(0, 0xFF)]) (fun t => t.pc) = some 0x10FE := by decide

/-! ### Register loads and arithmetic (T42) -/

theorem test_ldImm : after (start 0x6FAB) (fun t => t.getV 0xF) = some 0xAB := by decide
theorem test_addImm_wraps : after (regs (start 0x7001) [(0, 0xFF)]) (fun t => (t.getV 0, t.getV 0xF)) = some (0, 0) := by
  decide
theorem test_ldReg : after (regs (start 0x8120) [(2, 0x3C)]) (fun t => (t.getV 1, t.getV 2)) = some (0x3C, 0x3C) := by
  decide
theorem test_orReg : after (regs (start 0x8011) [(0, 0xF0), (1, 0x0F), (0xF, 1)]) (fun t => (t.getV 0, t.getV 0xF)) =
    some (0xFF, 1) := by decide
theorem test_andReg : after (regs (start 0x8012) [(0, 0xF0), (1, 0x3C), (0xF, 1)]) (fun t => (t.getV 0, t.getV 0xF)) =
    some (0x30, 1) := by decide
theorem test_xorReg : after (regs (start 0x8013) [(0, 0xF0), (1, 0x3C), (0xF, 1)]) (fun t => (t.getV 0, t.getV 0xF)) =
    some (0xCC, 1) := by decide
theorem test_addReg_256 : after (regs (start 0x8014) [(0, 0x80), (1, 0x80)]) (fun t => (t.getV 0, t.getV 0xF)) =
    some (0, 1) := by decide
theorem test_addReg_vf : after (regs (start 0x81F4) [(1, 0xFF), (0xF, 2)]) (fun t => (t.getV 1, t.getV 0xF)) =
    some (1, 1) := by decide
theorem test_subReg_equal : after (regs (start 0x8015) [(0, 7), (1, 7), (0xF, 1)]) (fun t => (t.getV 0, t.getV 0xF)) =
    some (0, 0) := by decide
theorem test_subReg_vf : after (regs (start 0x81F5) [(1, 9), (0xF, 3)]) (fun t => (t.getV 1, t.getV 0xF)) =
    some (8, 1) := by decide
theorem test_shr : after (regs (start 0x83A6) [(3, 5), (0xA, 0xFF)]) (fun t => (t.getV 3, t.getV 0xF)) = some (2, 1) := by
  decide
theorem test_shr_vf : after (regs (start 0x8F06) [(0xF, 0xFF)]) (fun t => t.getV 0xF) = some 0 := by decide
theorem test_subnReg : after (regs (start 0x8017) [(0, 5), (1, 3), (0xF, 1)]) (fun t => (t.getV 0, t.getV 0xF)) =
    some (0xFE, 0) := by decide
theorem test_subnReg_vf : after (regs (start 0x81F7) [(1, 9), (0xF, 3)]) (fun t => (t.getV 1, t.getV 0xF)) =
    some (0xF7, 0) := by decide
theorem test_shl : after (regs (start 0x83AE) [(3, 0x81)]) (fun t => (t.getV 3, t.getV 0xF)) = some (2, 1) := by decide
theorem test_shl_vf : after (regs (start 0x8F0E) [(0xF, 0xFF)]) (fun t => t.getV 0xF) = some 2 := by decide
theorem test_rnd : after ((start 0xC00F).present 0 0xA7) (fun t => t.getV 0) = some 7 := by decide

/-! ### The index register, loads and stores (T43) -/

theorem test_ldI : after (start 0xAFFF) (fun t => t.index) = some 0xFFF := by decide
theorem test_addI_no_flag : after (regs { start 0xF21E with index := 0xFFE } [(2, 5)]) (fun t => (t.index, t.getV 0xF)) =
    some (0x1003, 0) := by decide
theorem test_addI_wraps : after (regs { start 0xF21E with index := 0xFFFF } [(2, 2)]) (fun t => t.index) = some 1 := by
  decide
theorem test_ldF : after (regs (start 0xF029) [(0, 0xF)]) (fun t => t.index) = some 0x9B := by decide
theorem test_ldF_whole_byte : after (regs (start 0xF029) [(0, 0xFF)]) (fun t => t.index) = some 0x54B := by decide
theorem test_ldB : after (regs { start 0xF333 with index := 0x400 } [(3, 0xEA)])
    (fun t => (List.range 3).map fun k => t.mem.peek (0x400 + k)) = some [2, 3, 4] := by decide
theorem test_ldB_faults : faultOf (regs { start 0xF333 with index := 0xFFE } [(3, 0xFF)]) =
    some (.memOutOfRange 0x1000) := by decide
theorem test_stRegs : after (regs { start 0xF255 with index := 0x300 } [(0, 0x11), (1, 0x22), (2, 0x33), (3, 0x44)])
    (fun t => ((List.range 4).map fun k => t.mem.peek (0x300 + k), t.index)) =
    some ([0x11, 0x22, 0x33, 0], 0x300) := by decide
theorem test_stRegs_faults : faultOf { start 0xF155 with index := 0xFFF } = some (.memOutOfRange 0x1000) := by decide
theorem test_ldRegs : after (regs (bytes { start 0xF265 with index := 0x400 } 0x400 [2, 3, 4, 5]) [(3, 0x77)])
    (fun t => (t.getV 0, t.getV 1, t.getV 2, t.getV 3, t.index)) = some (2, 3, 4, 0x77, 0x400) := by decide
theorem test_ldRegs_faults : faultOf { start 0xF165 with index := 0xFFF } = some (.memOutOfRange 0x1000) := by decide

/-! ### The framebuffer (T44) -/

theorem test_cls : after { start 0x0120 with fb := Vector.replicate 32 (-1) } (fun t => t.fb) =
    some (Vector.replicate 32 0) := by decide

/-- T44-08: three cells set, one cleared with collision, one untouched. -/
theorem test_drw : after (pixels (bytes { start 0xD012 with index := 0x300 } 0x300 [0xC0, 0xC0]) [(1, 2), (5, 32)])
    (fun t => (t.getV 0xF, t.fb[0], t.fb[1], t.fb[5])) = some (1, 3, 1, 32) := by decide

/-- T44-15: the off-grid bit of row 0 comes before the read of row 1. -/
theorem test_drw_faults : faultOf (regs (bytes { start 0xD012 with index := 0xFFF } 0xFFF [0x01]) [(0, 0x3C)]) =
    some (.drawOutOfBounds 67 0) := by decide

/-! ### Keypad and timers (T45) -/

theorem test_skp : after ((regs (startAt 0x210 0xE39E) [(3, 0xA)]).present 0x0400 0) (fun t => t.pc) = some 0x214 := by
  decide
theorem test_skp_faults : faultOf ((regs (start 0xE39E) [(3, 0x10)]).present 0xFFFF 0) = some (.keyIndexOutOfRange 16) := by
  decide
theorem test_sknp : after ((regs (startAt 0x210 0xE3A1) [(3, 0xA)]).present 0x0400 0) (fun t => t.pc) = some 0x212 := by
  decide
theorem test_sknp_faults : faultOf (regs (start 0xE3A1) [(3, 0xFF)]) = some (.keyIndexOutOfRange 255) := by decide
theorem test_ldVxDt : after { start 0xF107 with dt := 2 } (fun t => (t.getV 1, t.dt)) = some (2, 1) := by decide
theorem test_ldVxK : after ((startAt 0x206 0xF20A).present 0x0280 0) (fun t => (t.getV 2, t.pc)) = some (7, 0x208) := by
  decide
theorem test_ldVxK_waits : after (regs { startAt 0x206 0xF20A with dt := 4 } [(2, 0x33)])
    (fun t => (t.getV 2, t.pc, t.dt)) = some (0x33, 0x206, 3) := by decide
theorem test_ldDtVx : after (regs (start 0xF015) [(0, 3)]) (fun t => t.dt) = some 2 := by decide
theorem test_ldDtVx_vf : after (regs { start 0xFF15 with st := 7 } [(0xF, 0xFF)]) (fun t => (t.dt, t.st)) = some (254, 6) := by
  decide
theorem test_ldStVx : after (regs (start 0xF018) [(0, 4)]) (fun t => (t.st, t.toneOn)) = some (3, true) := by decide
theorem test_ldStVx_one : after (regs (start 0xF018) [(0, 1)]) (fun t => (t.st, t.toneOn)) = some (0, false) := by decide

/-! ### Witnesses: states and operands that meet the hypotheses of each statement -/

theorem witness_DecodeAgreesWithOpcodeTable : decodeWord 0x6005 = some (.ldImm 0 5) ∧ decodeWord 0xF105 = none := by decide

theorem witness_InvalidWordsAreR92 :
    decodeWord 0x0001 = none ∧ decodeWord 0x8008 = none ∧ decodeWord 0xE000 = none ∧ decodeWord 0xF034 = none := by decide

/-- A word for each mask of IgnoredBitsSelectNothing, with its ignored bits off the customary values (T30). -/
theorem witness_IgnoredBitsSelectNothing :
    (0x0FF0 : Word) &&& 0xF00F = 0x0000 ∧ (0x0ABE : Word) &&& 0xF00F = 0x000E ∧ (0x512F : Word) &&& 0xF000 = 0x5000 ∧
    (0x912F : Word) &&& 0xF000 = 0x9000 ∧ (0xE30E : Word) &&& 0xF00F = 0xE00E ∧ (0xE3F1 : Word) &&& 0xF00F = 0xE001 ∧
    (0x83A6 : Word) &&& 0xF00F = 0x8006 ∧ (0x83AE : Word) &&& 0xF00F = 0x800E := by decide

/-- A word for each mask of KeysGiveOperandFields. -/
theorem witness_KeysGiveOperandFields :
    (0x1FFF : Word) &&& 0xF000 = 0x1000 ∧ (0x2ABC : Word) &&& 0xF000 = 0x2000 ∧ (0x4005 : Word) &&& 0xF000 = 0x4000 ∧
    (0x7F02 : Word) &&& 0xF000 = 0x7000 ∧ (0xA400 : Word) &&& 0xF000 = 0xA000 ∧ (0xB512 : Word) &&& 0xF000 = 0xB000 ∧
    (0xC00F : Word) &&& 0xF000 = 0xC000 ∧ (0xD015 : Word) &&& 0xF000 = 0xD000 ∧
    ([0x8120, 0x8011, 0x8012, 0x8013, 0x8014, 0x8015, 0x8017] : List Word).map (· &&& 0xF00F) =
      [0x8000, 0x8001, 0x8002, 0x8003, 0x8004, 0x8005, 0x8007] ∧
    ([0xF107, 0xF20A, 0xF015, 0xF018, 0xF21E, 0xF029, 0xF333, 0xF255, 0xF265] : List Word).map (· &&& 0xF0FF) =
      [0xF007, 0xF00A, 0xF015, 0xF018, 0xF01E, 0xF029, 0xF033, 0xF055, 0xF065] := by decide

/-- At the last fetchable pc, a handler that answers. -/
theorem witness_StepRunsDecodedInstruction :
    (startAt 0xFFE 0x6001).faulted = none ∧ (startAt 0xFFE 0x6001).pc.toNat = 0xFFE ∧
    decode [(startAt 0xFFE 0x6001).mem.peek 0xFFE, (startAt 0xFFE 0x6001).mem.peek 0xFFF] = .ok (.ldImm 0 1, []) ∧
    Instr.wellFormed (.ldImm 0 1) = true ∧
    afterExec (.ldImm 0 1) { startAt 0xFFE 0x6001 with pc := 0x1000 } (fun t => t.pc) = some 0x1000 := by decide

/-- A handler that faults. -/
theorem witness_StepRunsDecodedInstruction_fault :
    (start 0x00EE).faulted = none ∧ (start 0x00EE).pc.toNat ≤ 0xFFE ∧
    decode [(start 0x00EE).mem.peek 0x200, (start 0x00EE).mem.peek 0x201] = .ok (.ret, []) ∧
    exec .ret { start 0x00EE with pc := 0x202 } = .fault (.stackUnderflow 0x200) :=
  ⟨by decide, by decide, by decide, rfl⟩

theorem witness_FetchFaultsAboveFFE :
    ({ State.reset with pc := 0xFFF } : State).faulted = none ∧ 0xFFE < ({ State.reset with pc := 0xFFF } : State).pc.toNat ∧
    (startAt 0xFFE 0x6001).faulted = none ∧ ¬ 0xFFE < (startAt 0xFFE 0x6001).pc.toNat := by decide

theorem witness_InvalidOpcodeNamesWord :
    (startAt 0xFFE 0x0001).faulted = none ∧ (startAt 0xFFE 0x0001).pc.toNat ≤ 0xFFE ∧
    ((startAt 0xFFE 0x0001).mem.peek 0xFFE).toNat * 256 + ((startAt 0xFFE 0x0001).mem.peek 0xFFF).toNat = 1 ∧
    decodeWord 0x0001 = none := by decide

theorem witness_RefusedExactlyWhenLatched :
    (afterFault (.stackOverflow 0x200) State.reset).faulted = some (.stackOverflow 0x200) := rfl

theorem witness_FaultIsFinalUntilReset :
    step (start 0x00EE) = .fault (.stackUnderflow 0x200) ∧
    ∃ t, load [0x12, 0x00] (afterFault (.stackUnderflow 0x200) State.reset) = .ok t := ⟨rfl, _, rfl⟩

/-- A step that answers a next state, for TimersTickAfterHandler, WrittenTimerLosesOneCount and SequentialStepAddsTwo. -/
theorem witness_TimersTickAfterHandler : ∃ t, step { start 0x6005 with dt := 255, st := 1 } = .next t := ⟨_, rfl⟩

theorem witness_WrittenTimerLosesOneCount :
    (∃ t, step { start 0xF015 with dt := 9 } = .next t) ∧ (∃ t, step { start 0xF018 with st := 9 } = .next t) ∧
    decode [(start 0xF015).mem.peek 0x200, (start 0xF015).mem.peek 0x201] = .ok (.ldDtVx 0, []) ∧
    decode [(start 0xF018).mem.peek 0x200, (start 0xF018).mem.peek 0x201] = .ok (.ldStVx 0, []) :=
  ⟨⟨_, rfl⟩, ⟨_, rfl⟩, by decide, by decide⟩

theorem witness_SequentialStepAddsTwo :
    (∃ t, step (startAt 0xFFE 0x6001) = .next t) ∧ Instr.mayTransfer (.ldImm 0 1) = false ∧
    decode [(startAt 0xFFE 0x6001).mem.peek 0xFFE, (startAt 0xFFE 0x6001).mem.peek 0xFFF] = .ok (.ldImm 0 1, []) :=
  ⟨⟨_, rfl⟩, rfl, by decide⟩

theorem witness_InputsReadOnlyByNamed :
    Instr.readsKeys (.rnd 0 1) = false ∧ Instr.readsRnd (.skp 0) = false ∧ Instr.readsKeys .cls = false ∧
    Instr.readsRnd .cls = false := by decide

/-- A state that meets the invariant with a live return address at each bound, and a step from it. -/
def deep : State := { startAt 0xFFE 0x6001 with sp := 2, stack := (Vector.replicate 16 0x1000).set 0 2 }

theorem witness_StepKeepsMachineBounds : Inv deep ∧ ∃ t, step deep = .next t := by
  refine ⟨⟨by decide, ?_, by decide⟩, _, rfl⟩
  intro k h
  have h' : k < 2 := h
  obtain rfl | rfl : k = 0 ∨ k = 1 := by omega
  · exact (by decide : 2 ≤ (deep.stack[0]).toNat ∧ (deep.stack[0]).toNat ≤ 0x1000)
  · exact (by decide : 2 ≤ (deep.stack[1]).toNat ∧ (deep.stack[1]).toNat ≤ 0x1000)

theorem witness_ReachableStatesInBounds : Reachable defaultFont State.reset ∧ State.reset.faulted = none := ⟨.reset, rfl⟩

/-- After one step, a state that is no longer the reset state. -/
theorem witness_ReachableStatesInBounds_step : ∃ t, stepWith 0 0 State.reset = .next t ∧ Reachable defaultFont t :=
  ⟨_, rfl, .move _ _ .reset (.step _ _ 0 0 rfl)⟩

/-- Next states of a register form, a store, a load, a draw, a call and a return. -/
theorem witness_InstructionFrame :
    (∃ t, exec (.addReg 1 2) State.reset = .next t) ∧ (∃ t, exec (.stRegs 15) State.reset = .next t) ∧
    (∃ t, exec (.ldRegs 15) State.reset = .next t) ∧ (∃ t, exec (.drw 0 0 0) State.reset = .next t) ∧
    (∃ t, exec (.call 0x300) State.reset = .next t) ∧ (∃ t, exec .ret { State.reset with sp := 16 } = .next t) :=
  ⟨⟨_, rfl⟩, ⟨_, rfl⟩, ⟨_, rfl⟩, ⟨_, rfl⟩, ⟨_, rfl⟩, ⟨_, rfl⟩⟩

/-- Each fault a handler raises. -/
theorem witness_FaultsComeFromTheirInstructions :
    exec (.ldB 0) { State.reset with index := 0xFFE } = .fault (.memOutOfRange 0x1000) ∧
    exec (.call 0) { State.reset with sp := 16 } = .fault (.stackOverflow 0x1FE) ∧
    exec .ret State.reset = .fault (.stackUnderflow 0x1FE) ∧
    exec (.drw 0 1 1) (regs { State.reset with index := 0x50 } [(0, 63)]) = .fault (.drawOutOfBounds 64 0) ∧
    exec (.sknp 0) (regs State.reset [(0, 16)]) = .fault (.keyIndexOutOfRange 16) := ⟨rfl, rfl, rfl, rfl, rfl⟩

theorem witness_LdImmLoadsImmediate : (0x6FAB : Word) &&& 0xF000 = 0x6000 := by decide

/-- Destination VF and not VF, the first with the carry lost. -/
theorem witness_AddRegSumAndCarry : (0 : RegNum) ≠ vf ∧ (15 : RegNum) = vf := by decide

theorem witness_SubtractStrictFlag : (14 : RegNum) ≠ vf ∧ (0 : RegNum) ≠ vf := by decide

theorem witness_SubtractThroughFlag : (14 : RegNum) ≠ vf := by decide

theorem witness_ShiftsKeepEveryBit : (14 : RegNum) ≠ vf ∧ (15 : RegNum) = vf := by decide

theorem witness_ArithmeticNeverFaults : Instr.isArithmetic (.addI 15) = true := rfl

/-- T44-09: a sprite in the last columns of the last row. -/
def corner : State := regs (bytes { State.reset with index := 0x300 } 0x300 [0xFF]) [(0, 56), (1, 31)]

theorem witness_DrwXorsSprite : ∀ r < (1 : Nibble).toNat, RowOnGrid corner 0 1 r := by
  intro r hr
  obtain rfl : r = 0 := by simpa using hr
  unfold RowOnGrid; decide

/-- Both outcomes of the flag: a drawn bit on a pixel that is on, and none. -/
theorem witness_DrwXorsSprite_flag :
    spriteOn corner 0 1 1 31 63 = true ∧ corner.pixel 31 63 = false ∧
    (pixels corner [(31, BitVec.twoPow 64 63)]).pixel 31 63 = true := by decide

/-- T44-14: row 0 can be drawn, row 1 is outside memory. -/
theorem witness_DrwReportsFirstFault_memory :
    (1 : Nat) < (2 : Nibble).toNat ∧ (∀ q < 1, RowOnGrid { State.reset with index := 0xFFF } 0 1 q) ∧
    0xFFF < baseAddr { State.reset with index := 0xFFF } + 1 := by
  refine ⟨by decide, ?_, by decide⟩
  intro q hq
  obtain rfl : q = 0 := by omega
  unfold RowOnGrid; decide

/-- T44-13: row 0 on the last row of the grid, row 1 below it, its first set bit at column 0. -/
def below : State := regs (bytes { State.reset with index := 0x300 } 0x300 [0x80, 0x80]) [(1, 31)]

theorem witness_DrwReportsFirstFault_grid :
    (1 : Nat) < (2 : Nibble).toNat ∧ (∀ q < 1, RowOnGrid below 0 1 q) ∧ baseAddr below + 1 ≤ 0xFFF ∧
    spriteBit (spriteByte below 1) 0 = true ∧ 31 < startRow below 1 + 1 := by
  refine ⟨by decide, ?_, by decide, by decide, by decide⟩
  intro q hq
  obtain rfl : q = 0 := by omega
  unfold RowOnGrid; decide

/-- T44-10: the last bit of a row on column 64, the earlier ones on the grid. -/
def beside : State := regs (bytes { State.reset with index := 0x300 } 0x300 [0xFF]) [(0, 57)]

theorem witness_DrwReportsFirstFault_column :
    (0 : Nat) < (1 : Nibble).toNat ∧ baseAddr beside ≤ 0xFFF ∧ spriteBit (spriteByte beside 0) 7 = true ∧
    63 < startCol beside 0 + 7 ∧
    ∀ d < 7, spriteBit (spriteByte beside 0) d = true → startCol beside 0 + d ≤ 63 ∧ startRow beside 1 + 0 ≤ 31 := by
  decide

theorem witness_DrawTwiceRestoresPicture :
    (0 : RegNum) ≠ vf ∧ (1 : RegNum) ≠ vf ∧ ∃ t, exec (.drw 0 1 1) corner = .next t := ⟨by decide, by decide, _, rfl⟩

theorem witness_CallPushesReturn :
    ({ State.reset with sp := 15 } : State).sp.val < 16 ∧ ({ State.reset with sp := 16 } : State).sp.val = 16 := by decide

theorem witness_RetPopsReturn : 0 < ({ State.reset with sp := 1 } : State).sp.val ∧ State.reset.sp.val = 0 := by decide

theorem witness_CallThenRetReturns :
    ∃ t u : State, exec (.call 0x300) { State.reset with sp := 15 } = .next t ∧ u.stack = t.stack ∧ u.sp = t.sp :=
  ⟨_, _, rfl, rfl, rfl⟩

theorem witness_SeImmSkipsWhenEqual :
    (0x3F01 : Word) &&& 0xF000 = 0x3000 ∧ State.reset.getV 0 = 0 ∧ State.reset.getV 0 ≠ 1 := by decide

theorem witness_KeySkipsTestKey : ((regs State.reset [(3, 15)]).getV 3).toNat ≤ 15 := by decide

theorem witness_KeySkipsFaultAbove15 : 15 < ((regs State.reset [(3, 16)]).getV 3).toNat := by decide

/-- Key 15 the only one, and no key. -/
theorem witness_WaitKeyTakesLeast :
    (State.reset.present 0x8000 0).keys.getLsbD 15 = true ∧
    (∀ j < 15, (State.reset.present 0x8000 0).keys.getLsbD j = false) ∧ ∀ k < 16, State.reset.keys.getLsbD k = false := by
  decide

/-- The last I of LD B (T43-13). -/
theorem witness_BcdStoresDigits : baseAddr { State.reset with index := 0xFFD } + 2 = 0xFFF := by decide

/-- Sixteen registers into the last sixteen bytes. -/
theorem witness_StoreRegsAtIndex : baseAddr { State.reset with index := 0xFF0 } + (15 : RegNum).toNat = 0xFFF := by decide

theorem witness_LoadRegsFromIndex : baseAddr { State.reset with index := 0xFFF } + (0 : RegNum).toNat = 0xFFF := by decide

/-- One address too far, and I itself out of range. -/
theorem witness_MemoryAccessFaultAddress :
    baseAddr { State.reset with index := 0xFFE } + 2 = 0x1000 ∧
    baseAddr { State.reset with index := 0xFF1 } + (15 : RegNum).toNat = 0x1000 ∧
    0xFFF < baseAddr { State.reset with index := 0xFFFF } + (0 : RegNum).toNat := by decide

theorem witness_StoreThenLoadRestores :
    ∃ t u : State, exec (.stRegs 15) { State.reset with index := 0xFF0 } = .next t ∧ u.index = t.index ∧
      ∀ a, bytesFrom 0xFF0 16 a = true → u.mem.peek a = t.mem.peek a := ⟨_, _, rfl, rfl, fun _ _ => rfl⟩

/-- A store over the last two bytes, and a state whose next fetch is there. -/
theorem witness_StoredWordIsFetched :
    1 ≤ (1 : RegNum).toNat ∧ ∃ t, exec (.stRegs 1) { State.reset with index := 0xFFE, pc := 0xFFE } = .next t ∧
      t.pc = 0xFFE := ⟨by decide, _, rfl, rfl⟩

theorem witness_LoadWritesImage (b : Byte) : (List.replicate 3584 b).length ≤ 3584 :=
  Nat.le_of_eq List.length_replicate

theorem witness_RomTooLargeOnlyFromLoad (b : Byte) : 3584 < (List.replicate 3585 b).length :=
  Nat.lt_of_lt_of_eq (Nat.lt_succ_self _) List.length_replicate.symm

/-- T40-06: `JP 0x200` at 0x200; a jump elsewhere, and a latched machine, are not idle. -/
theorem witness_IdleLoopStays :
    (start 0x1200).idle = true ∧ (start 0x1202).idle = false ∧
    (afterFault (.stackUnderflow 0x200) (start 0x1200)).idle = false := by decide

/-- `LD V0,0x05` and `JP 0x202`, with key 5 down in every step. -/
def shortRun : Run := ⟨defaultFont, [0x60, 0x05, 0x12, 0x02], fun _ => ⟨0x0020, 0⟩⟩

theorem test_run :
    (shortRun.after 1).map (fun t => (t.getV 0, t.pc)) = some (5, 0x202) ∧
    (Run.after ⟨defaultFont, [0x00, 0xEE], fun _ => ⟨0, 0⟩⟩ 1).isNone = true := by decide

theorem witness_LaunchIsResetWithImage (b : Byte) :
    (List.replicate 3584 b).length ≤ 3584 ∧ ∃ s, shortRun.launch = .ok s :=
  ⟨Nat.le_of_eq List.length_replicate, _, rfl⟩

/-- Two runs that differ after step 1 only, and a run that fails in step 1. -/
theorem witness_RunStateFromImageAndInputs :
    (∀ j < 1, shortRun.inputs j = (fun i => if i = 0 then ⟨0x0020, 0⟩ else ⟨0, 0xFF⟩ : Nat → StepInput) j) ∧
    Run.after ⟨defaultFont, [0x00, 0xEE], fun _ => ⟨0, 0⟩⟩ 1 = none := by
  refine ⟨fun j hj => ?_, rfl⟩
  obtain rfl : j = 0 := by omega
  rfl

theorem witness_RunStatesUnfaulted : ∃ t, shortRun.EndsByCount 1 t := ⟨_, rfl⟩

/-- The run is idle first after one step. -/
theorem witness_IdleEndPersists : ∃ t, shortRun.EndsIdle 1 t := by
  refine ⟨_, rfl, by decide, fun j hj s hs => ?_⟩
  obtain rfl : j = 0 := by omega
  have h : (shortRun.after 0).map State.idle = some false := by decide
  rw [hs] at h
  simpa using h

theorem witness_ResetLeavesSpecValues : (0x04F : Nat) < 0x050 ∧ (0x0A0 : Nat) ≤ 0x0A0 := by decide

end Sys2Proof.Tests
end

section
/-! PROOFS. The state: what an instruction writes, the machine's bounds R37 and the reset state (10_state R20 to R37). -/

namespace Sys2Proof.Machine

variable {w : Writes} {s t : State} {i : Instr}

/-! ### Sets of pieces of state -/

@[simp] theorem oneReg_self (x : RegNum) : oneReg x x = true := by simp [oneReg]

@[simp] theorem regAndFlag_self (x : RegNum) : regAndFlag x x = true := by simp [regAndFlag]

@[simp] theorem regAndFlag_vf (x : RegNum) : regAndFlag x vf = true := by simp [regAndFlag]

theorem Frame.pc_eq (h : Frame w s t) (hw : w.pc = false) : t.pc = s.pc := by
  obtain ⟨-, -, -, hpc, -⟩ := h
  exact hpc hw

theorem Frame.stack_eq (h : Frame w s t) (hw : w.stack = false) : t.sp = s.sp ∧ t.stack = s.stack := by
  obtain ⟨-, -, -, -, hstack, -⟩ := h
  exact hstack hw

/-- The pieces R23 lets leave pc elsewhere than at the next instruction are those whose row of R36 names pc. -/
theorem writes_pc_eq_mayTransfer (i : Instr) (s : State) : (i.writes s).pc = i.mayTransfer := by
  cases i <;> rfl

/-! ### States made by allowed writes -/

/-- The states the named updates of Ops.lean make of `s`, each update of a piece in `w` and each byte written inside
memory. Every handler's state is one (`exec_writesOnly`); its frame and its canonical memory follow by induction. -/
inductive WritesOnly (w : Writes) (s : State) : State → Prop where
  | refl : WritesOnly w s s
  | setV {t : State} (x : RegNum) (b : Byte) : w.regs x = true → WritesOnly w s t → WritesOnly w s (t.setV x b)
  | poke {t : State} (a : Nat) (b : Byte) : w.mem a = true → a < 0x1000 → WritesOnly w s t →
      WritesOnly w s (t.setMem (t.mem.poke a b))
  | setIndex {t : State} (v : Word) : w.index = true → WritesOnly w s t → WritesOnly w s (t.setIndex v)
  | setPc {t : State} (v : Word) : w.pc = true → WritesOnly w s t → WritesOnly w s (t.setPc v)
  | setStack {t : State} (k : Vector Word 16) (p : Fin 17) : w.stack = true → WritesOnly w s t →
      WritesOnly w s (t.setStack k p)
  | setDt {t : State} (b : Byte) : w.dt = true → WritesOnly w s t → WritesOnly w s (t.setDt b)
  | setSt {t : State} (b : Byte) : w.st = true → WritesOnly w s t → WritesOnly w s (t.setSt b)
  | setFb {t : State} (f : Vector (BitVec 64) 32) : w.fb = true → WritesOnly w s t → WritesOnly w s (t.setFb f)

/-- Nothing outside the set differs: each update changes its own piece, and that piece is in the set. -/
theorem WritesOnly.frame (h : WritesOnly w s t) : Frame w s t := by
  induction h with
  | refl => exact ⟨fun _ _ => rfl, fun _ _ => rfl, fun _ => rfl, fun _ => rfl, fun _ => ⟨rfl, rfl⟩, fun _ => rfl,
      fun _ => rfl, fun _ => rfl, rfl, rfl, rfl, rfl⟩
  | setV x b hx _ ih =>
    obtain ⟨hv, rest⟩ := ih
    refine ⟨fun r hr => ?_, rest⟩
    rw [State.getV_setV_other _ b (ne_of_apply_ne w.regs (by simp [hr, hx])), hv r hr]
  | poke a b ha _ _ ih =>
    obtain ⟨hv, hmem, rest⟩ := ih
    refine ⟨hv, fun c hc => ?_, rest⟩
    rw [State.setMem_mem, Memory.peek_poke, if_neg (ne_of_apply_ne w.mem (by simp [hc, ha])), hmem c hc]
  | setIndex v hw _ ih =>
    obtain ⟨hv, hmem, -, rest⟩ := ih
    exact ⟨hv, hmem, by simp [hw], rest⟩
  | setPc v hw _ ih =>
    obtain ⟨hv, hmem, hindex, -, rest⟩ := ih
    exact ⟨hv, hmem, hindex, by simp [hw], rest⟩
  | setStack k p hw _ ih =>
    obtain ⟨hv, hmem, hindex, hpc, -, rest⟩ := ih
    exact ⟨hv, hmem, hindex, hpc, by simp [hw], rest⟩
  | setDt b hw _ ih =>
    obtain ⟨hv, hmem, hindex, hpc, hstack, -, rest⟩ := ih
    exact ⟨hv, hmem, hindex, hpc, hstack, by simp [hw], rest⟩
  | setSt b hw _ ih =>
    obtain ⟨hv, hmem, hindex, hpc, hstack, hdt, -, rest⟩ := ih
    exact ⟨hv, hmem, hindex, hpc, hstack, hdt, by simp [hw], rest⟩
  | setFb f hw _ ih =>
    obtain ⟨hv, hmem, hindex, hpc, hstack, hdt, hst, -, rest⟩ := ih
    exact ⟨hv, hmem, hindex, hpc, hstack, hdt, hst, by simp [hw], rest⟩

theorem WritesOnly.mem_wf (h : WritesOnly w s t) (hs : s.mem.wf = true) : t.mem.wf = true := by
  induction h with
  | refl => exact hs
  | poke a b _ ha _ ih => exact Memory.wf_poke b ha ih
  | _ => assumption

theorem WritesOnly.of_skipIf (c : Bool) (hw : w.pc = true) : WritesOnly w s (skipIf c s) := by
  rw [skipIf_eq]
  exact .setPc _ hw .refl

/-- A run of stores that answers wrote its own bytes, and none above 0xFFF (R57). -/
theorem WritesOnly.of_storeBytes {u : State} {bs : List Byte} {a : Nat} (hb : storeBytes u a bs = .ok t)
    (hw : ∀ c, a ≤ c → c < a + bs.length → w.mem c = true) (hu : WritesOnly w s u) : WritesOnly w s t := by
  induction bs generalizing u a with
  | nil => cases hb; exact hu
  | cons b bs ih =>
    rw [storeBytes, memWrite_eq] at hb
    simp only [List.length_cons] at hw
    by_cases ha : a < 0x1000
    · rw [if_pos ha] at hb
      exact ih hb (fun c h1 h2 => hw c (by omega) (by omega)) (.poke a b (hw a (by omega) (by omega)) ha hu)
    · simp [ha] at hb

/-- A run of loads that answers wrote its own registers (R185). -/
theorem WritesOnly.of_loadRegs {u : State} {count a k : Nat} (hl : loadRegs u a k count = .ok t)
    (hw : ∀ j, k ≤ j → j < k + count → w.regs (BitVec.ofNat 4 j) = true) (hu : WritesOnly w s u) :
    WritesOnly w s t := by
  induction count generalizing u a k with
  | zero => cases hl; exact hu
  | succ n ih =>
    rw [loadRegs, memRead_eq] at hl
    by_cases ha : a < 0x1000
    · rw [if_pos ha] at hl
      exact ih hl (fun j h1 h2 => hw j (by omega) (by omega)) (.setV _ _ (hw k (by omega) (by omega)) hu)
    · simp [ha] at hl

/-! ### What the handlers that can fault answer -/

theorem finish_eq_next {r : Except Fault State} : finish r = .next t ↔ r = .ok t := by
  cases r <;> simp [finish, raise]

/-- RET answers only with a live slot, and pops it (R130). -/
theorem exec_ret_next (h : exec .ret s = .next t) : ∃ _ : 0 < s.sp.val,
    t = (s.setStack s.stack ⟨s.sp.val - 1, by omega⟩).setPc (s.stack[s.sp.val - 1]'(by omega)) := by
  have hp : popReturn s = .ok t := finish_eq_next.1 h
  by_cases hsp : 0 < s.sp.val
  · rw [popReturn_ok hsp] at hp
    cases hp
    exact ⟨hsp, rfl⟩
  · simp [popReturn_error (show s.sp.val = 0 by omega)] at hp

/-- CALL answers only with a free slot, and pushes pc there (R132). -/
theorem exec_call_next {nnn : Addr12} (h : exec (.call nnn) s = .next t) : ∃ hsp : s.sp.val < 16,
    t = (s.setStack (s.stack.set s.sp.val s.pc hsp) ⟨s.sp.val + 1, by omega⟩).setPc (zextAddr nnn) := by
  simp only [exec, execCall] at h
  by_cases hsp : s.sp.val < 16
  · rw [pushReturn_ok hsp] at h
    cases h
    exact ⟨hsp, rfl⟩
  · simp [pushReturn_error (show s.sp.val = 16 by omega), raise] at h

/-- SKP answers only for a key that exists, and skips if it is down (R220). -/
theorem exec_skp_next {x : RegNum} (h : exec (.skp x) s = .next t) :
    ∃ pressed, selectedKey s x = .ok pressed ∧ t = skipIf pressed s := by
  simp only [exec, execSkp] at h
  split at h
  · next hkey => cases h; exact ⟨_, hkey, rfl⟩
  · cases h

/-- SKNP answers only for a key that exists, and skips if it is up (R221). -/
theorem exec_sknp_next {x : RegNum} (h : exec (.sknp x) s = .next t) :
    ∃ pressed, selectedKey s x = .ok pressed ∧ t = skipIf (!pressed) s := by
  simp only [exec, execSknp] at h
  split at h
  · next hkey => cases h; exact ⟨_, hkey, rfl⟩
  · cases h

/-- DRW answers only where the whole sprite can be drawn, and leaves the picture and the flag of that canvas (R201). -/
theorem exec_drw_next {x y : RegNum} {n : Nibble} (h : exec (.drw x y n) s = .next t) :
    ∃ c, drawRows s (startCol s x) (startRow s y) (List.range n.toNat) { fb := s.fb, hit := false } = .ok c ∧
      t = (s.setFb c.fb).setV vf (flag c.hit) := by
  simp only [exec, execDrw] at h
  split at h
  · next hdraw => cases h; exact ⟨_, hdraw, rfl⟩
  · cases h

/-- LD Vx,K takes the least pressed key, or puts pc back where none is pressed (R223). -/
theorem exec_ldVxK_next {x : RegNum} (h : exec (.ldVxK x) s = .next t) :
    (∃ k, leastKey s.keys = some k ∧ t = s.setV x (BitVec.ofNat 8 k)) ∨
    (leastKey s.keys = none ∧ t = s.setPc (s.pc - 2)) := by
  simp only [exec, execLdVxK] at h
  split at h
  · next hkey => cases h; exact .inl ⟨_, hkey, rfl⟩
  · next hkey => cases h; exact .inr ⟨hkey, rfl⟩

/-! ### The frame of every instruction (R36) -/

/-- Every handler writes only what R36's table names for its instruction, and no byte outside memory. -/
theorem exec_writesOnly (h : exec i s = .next t) : WritesOnly (i.writes s) s t := by
  cases i with
  | cls => cases h; exact .setFb _ rfl .refl
  | ret => obtain ⟨_, rfl⟩ := exec_ret_next h; exact .setPc _ rfl (.setStack _ _ rfl .refl)
  | call nnn => obtain ⟨_, rfl⟩ := exec_call_next h; exact .setPc _ rfl (.setStack _ _ rfl .refl)
  | jp nnn | jpV0 nnn => cases h; exact .setPc _ rfl .refl
  | seImm x kk | sneImm x kk => cases h; exact .of_skipIf _ rfl
  | seReg x y | sneReg x y => cases h; exact .of_skipIf _ rfl
  | skp x => obtain ⟨c, -, rfl⟩ := exec_skp_next h; exact .of_skipIf _ rfl
  | sknp x => obtain ⟨c, -, rfl⟩ := exec_sknp_next h; exact .of_skipIf _ rfl
  | ldImm x kk | addImm x kk | rnd x kk => cases h; exact .setV x _ (oneReg_self x) .refl
  | ldReg x y | orReg x y | andReg x y | xorReg x y => cases h; exact .setV x _ (oneReg_self x) .refl
  | ldVxDt x => cases h; exact .setV x _ (oneReg_self x) .refl
  | addReg x y | subReg x y | subnReg x y =>
    cases h; exact .setV x _ (regAndFlag_self x) (.setV vf _ (regAndFlag_vf x) .refl)
  | shr x | shl x => cases h; exact .setV x _ (regAndFlag_self x) (.setV vf _ (regAndFlag_vf x) .refl)
  | drw x y n => obtain ⟨c, -, rfl⟩ := exec_drw_next h; exact .setV vf _ (oneReg_self vf) (.setFb _ rfl .refl)
  | ldVxK x =>
    obtain ⟨k, -, rfl⟩ | ⟨-, rfl⟩ := exec_ldVxK_next h
    · exact .setV x _ (oneReg_self x) .refl
    · exact .setPc _ rfl .refl
  | ldI nnn => cases h; exact .setIndex _ rfl .refl
  | addI x | ldF x => cases h; exact .setIndex _ rfl .refl
  | ldDtVx x => cases h; exact .setDt _ rfl .refl
  | ldStVx x => cases h; exact .setSt _ rfl .refl
  | ldB x =>
    refine .of_storeBytes (finish_eq_next.1 h) (fun c h1 h2 => ?_) .refl
    simpa [Instr.writes, bytesFrom, h1] using h2
  | stRegs x =>
    refine .of_storeBytes (finish_eq_next.1 h) (fun c h1 h2 => ?_) .refl
    simpa [Instr.writes, bytesFrom, h1] using h2
  | ldRegs x =>
    refine .of_loadRegs (finish_eq_next.1 h) (fun j _ hj => ?_) .refl
    simp only [Instr.writes, BitVec.toNat_ofNat, decide_eq_true_eq]
    omega

theorem exec_frame (h : exec i s = .next t) : Frame (i.writes s) s t := (exec_writesOnly h).frame

/-- Settles O19: each handler is a chain of updates its row of R36's table names, and such a chain has that frame. -/
theorem instructionFrame : Obligations.InstructionFrame := by
  intro i s t h
  exact exec_frame h

/-! ### Sequential steps (R23) -/

theorem exec_pc_eq (h : exec i s = .next t) (hi : i.mayTransfer = false) : t.pc = s.pc :=
  (exec_frame h).pc_eq ((writes_pc_eq_mayTransfer i s).trans hi)

/-- The fetch's advance of a legal fetch does not wrap (R111). -/
theorem State.advance_pc_toNat (h : s.pc.toNat ≤ 0xFFE) : s.advance.pc.toNat = s.pc.toNat + 2 := by
  rw [State.advance_pc]
  bv_omega

theorem decodeWord_of_decode_pair {hi lo : Byte} (h : decode [hi, lo] = .ok (i, [])) :
    decodeWord (wordOfBytes hi lo) = some i := by
  cases hd : decodeWord (wordOfBytes hi lo) with
  | none => simp [decode, hd] at h
  | some j => simpa [decode, hd] using h

/-- Settles O14: the step ran the decoded instruction, whose frame keeps the advanced pc. -/
theorem sequentialStepAddsTwo : Obligations.SequentialStepAddsTwo := by
  intro s t i h hdec hi
  obtain ⟨j, u, -, hpc, hj, hu, rfl⟩ := step_next h
  obtain rfl : j = i := Option.some.inj (hj.symm.trans (decodeWord_of_decode_pair hdec))
  calc u.tick.nextInputs.pc.toNat = s.advance.pc.toNat := by simp [exec_pc_eq hu hi]
    _ = s.pc.toNat + 2 := State.advance_pc_toNat hpc

/-! ### The machine's bounds (R37) -/

/-- The live return addresses are legal: the second part of `Inv` (R130). -/
def ReturnsLegal (s : State) : Prop :=
  ∀ k (h : k < s.sp.val), 2 ≤ (s.stack[k]'(by omega)).toNat ∧ (s.stack[k]'(by omega)).toNat ≤ 0x1000

theorem inv_iff : Inv s ↔ s.pc.toNat ≤ 0x10FE ∧ ReturnsLegal s ∧ s.mem.wf = true := Iff.rfl

theorem ReturnsLegal.congr (hs : ReturnsLegal s) (hsp : t.sp = s.sp) (hst : t.stack = s.stack) : ReturnsLegal t := by
  unfold ReturnsLegal at hs ⊢
  simpa only [hsp, hst] using hs

theorem zextAddr_toNat (nnn : Addr12) : (zextAddr nnn).toNat = nnn.toNat := by
  rw [zextAddr, BitVec.toNat_setWidth]
  exact Nat.mod_eq_of_lt (by omega)

theorem zextByte_toNat (b : Byte) : (zextByte b).toNat = b.toNat := by
  rw [zextByte, BitVec.toNat_setWidth]
  exact Nat.mod_eq_of_lt (by omega)

theorem skipIf_pc_toNat_le (c : Bool) (h : s.pc.toNat ≤ 0x1000) : (skipIf c s).pc.toNat ≤ 0x1002 := by
  rw [skipIf_eq, State.setPc_pc]
  split <;> bv_omega

section

variable (hlo : 2 ≤ s.pc.toNat) (hhi : s.pc.toNat ≤ 0x1000)
include hlo hhi

/-- No handler leaves pc above 0x10FE, the largest target of JP V0 (R137); `s` is a state whose pc the fetch advanced. -/
theorem exec_pc_toNat_le (hr : ReturnsLegal s) (h : exec i s = .next t) : t.pc.toNat ≤ 0x10FE := by
  cases i with
  | ret =>
    obtain ⟨hsp, rfl⟩ := exec_ret_next h
    exact (hr (s.sp.val - 1) (by omega)).2.trans (by omega)
  | jp nnn =>
    cases h
    rw [State.setPc_pc, zextAddr_toNat]
    omega
  | call nnn =>
    obtain ⟨_, rfl⟩ := exec_call_next h
    rw [State.setPc_pc, zextAddr_toNat]
    omega
  | jpV0 nnn =>
    cases h
    rw [State.setPc_pc, BitVec.toNat_add, zextByte_toNat, zextAddr_toNat]
    omega
  | seImm x kk | sneImm x kk => cases h; exact (skipIf_pc_toNat_le _ hhi).trans (by omega)
  | seReg x y | sneReg x y => cases h; exact (skipIf_pc_toNat_le _ hhi).trans (by omega)
  | skp x => obtain ⟨c, -, rfl⟩ := exec_skp_next h; exact (skipIf_pc_toNat_le _ hhi).trans (by omega)
  | sknp x => obtain ⟨c, -, rfl⟩ := exec_sknp_next h; exact (skipIf_pc_toNat_le _ hhi).trans (by omega)
  | ldVxK x =>
    obtain ⟨k, -, rfl⟩ | ⟨-, rfl⟩ := exec_ldVxK_next h
    · rw [State.setV_pc]; omega
    · rw [State.setPc_pc]; bv_omega
  | _ => rw [exec_pc_eq h rfl]; omega

/-- CALL pushes the advanced pc, RET drops a slot, and no other handler touches the stack (R130, R132). -/
theorem exec_returnsLegal (hr : ReturnsLegal s) (h : exec i s = .next t) : ReturnsLegal t := by
  cases i with
  | ret =>
    obtain ⟨hsp, rfl⟩ := exec_ret_next h
    exact fun k hk => hr k (by simp at hk; omega)
  | call nnn =>
    obtain ⟨hsp, rfl⟩ := exec_call_next h
    intro k hk
    simp only [State.setPc_stack, State.setStack_stack, Vector.getElem_set]
    split
    · exact ⟨hlo, hhi⟩
    · exact hr k (by simp at hk; omega)
  | _ =>
    obtain ⟨hsp, hst⟩ := (exec_frame h).stack_eq rfl
    exact hr.congr hsp hst

theorem exec_inv (hr : ReturnsLegal s) (hm : s.mem.wf = true) (h : exec i s = .next t) : Inv t :=
  ⟨exec_pc_toNat_le hlo hhi hr h, exec_returnsLegal hlo hhi hr h, (exec_writesOnly h).mem_wf hm⟩

end

/-- Settles O16: a fetch at pc up to 0xFFE hands the handler a pc from 2 to 0x1000, from which it keeps each bound, and
the tick and the inputs are in none of them. -/
theorem stepKeepsMachineBounds : Obligations.StepKeepsMachineBounds := by
  intro s t hs h
  obtain ⟨-, hr, hm⟩ := inv_iff.1 hs
  obtain ⟨i, u, -, hpc, -, hu, rfl⟩ := step_next h
  have hadv : s.advance.pc.toNat = s.pc.toNat + 2 := State.advance_pc_toNat hpc
  have hinv : Inv u := exec_inv (s := s.advance) (by omega) (by omega) (hr.congr rfl rfl) hm hu
  exact hinv

/-- Settles O17: pc is 0x200, no slot is live, and the font's bytes are listed in canonical form. -/
theorem resetMeetsMachineBounds : Obligations.ResetMeetsMachineBounds := by
  have hreset (font : Font) : Inv (State.resetWith font) :=
    ⟨show 0x200 ≤ 0x10FE by omega, fun k hk => absurd hk (Nat.not_lt_zero k), Memory.wf_resetWith font⟩
  exact ⟨hreset defaultFont, hreset⟩

theorem Memory.lt_of_mem_wfFrom {m : Memory} {lo : Nat} {c : Host.Cell} (hm : Memory.wfFrom lo m = true)
    (hc : c ∈ m) : c.1 < 0x1000 := by
  induction m generalizing lo with
  | nil => cases hc
  | cons d m ih =>
    simp only [Memory.wfFrom, Bool.and_eq_true, decide_eq_true_eq] at hm
    obtain ⟨⟨⟨-, hd⟩, -⟩, htail⟩ := hm
    rcases List.mem_cons.1 hc with rfl | hc
    · exact hd
    · exact ih htail hc

theorem load_ok {bytes : List Byte} (h : bytes.length ≤ 3584) :
    load bytes s = .ok (s.setMem (s.mem.pokes 0x200 bytes)) := by
  simp [load, imageFits, h]

theorem load_failed {bytes : List Byte} (h : 3584 < bytes.length) :
    load bytes s = .failed (.romTooLarge bytes.length 3584) := by
  simp [load, imageFits, h]

theorem afterLoad_faulted (s : State) (bytes : List Byte) : (afterLoad s (load bytes s)).faulted = s.faulted := by
  rcases Nat.lt_or_ge 3584 bytes.length with h | h
  · rw [load_failed h]; rfl
  · rw [load_ok h]; rfl

/-- A load writes memory alone, and an image it accepts ends inside memory (R281). -/
theorem afterLoad_inv (hs : Inv s) (bytes : List Byte) : Inv (afterLoad s (load bytes s)) := by
  rcases Nat.lt_or_ge 3584 bytes.length with h | h
  · rw [load_failed h]
    exact hs
  · obtain ⟨hpc, hr, hm⟩ := hs
    rw [load_ok h]
    exact ⟨hpc, hr, Memory.wf_pokes bytes (by omega) hm⟩

/-- A move of the host into an unfaulted state keeps the bounds, given those of the state it left if that was unfaulted. -/
theorem HostMove.inv {font : Font} (h : HostMove font s t) (hs : s.faulted = none → Inv s) (ht : t.faulted = none) :
    Inv t := by
  cases h with
  | reset => exact resetMeetsMachineBounds.2 font
  | load bytes => exact afterLoad_inv (hs (by rwa [afterLoad_faulted] at ht)) bytes
  | step _ keys rnd hstep =>
    obtain ⟨-, -, hf, -⟩ := step_next hstep
    have hpresent : Inv (s.present keys rnd) := hs hf
    exact stepKeepsMachineBounds _ _ hpresent hstep
  | stepFault => cases ht
  | stepRefused => exact hs ht

theorem Reachable.inv {font : Font} (h : Reachable font s) : s.faulted = none → Inv s := by
  induction h with
  | reset => exact fun _ => resetMeetsMachineBounds.2 font
  | move s t _ hmove ih => exact hmove.inv ih

/-- Settles O18: `Inv` holds in every unfaulted state the host can bring the machine to, and sp is bounded by its type. -/
theorem reachableStatesInBounds : Obligations.ReachableStatesInBounds := by
  intro font s h hf
  obtain ⟨hpc, -, hm⟩ := h.inv hf
  exact ⟨by omega, hpc, hm, fun c hc => Nat.le_of_lt_succ (Memory.lt_of_mem_wfFrom hm hc)⟩

/-! ### The reset state (R35) -/

theorem peek_resetWith_outside_font (font : Font) {a : Nat} (ha : a < 0x050 ∨ 0x0A0 ≤ a) :
    (State.resetWith font).mem.peek a = 0 := by
  rw [Memory.peek_resetWith, dif_neg (by omega)]

/-- Row k of glyph d stands at 0x050 + 5d + k (R31). -/
theorem peek_resetWith_glyph (font : Font) (d : Fin 16) (k : Fin 5) :
    (State.resetWith font).mem.peek (0x050 + 5 * d.val + k.val) = font[d][k] := by
  have hbyte := fontBytes_getElem? font d.isLt k.isLt
  rw [Memory.peek_resetWith, dif_pos (by omega)]
  obtain ⟨hlt, hget⟩ := List.getElem?_eq_some_iff.1 hbyte
  simpa [show 0x050 + 5 * d.val + k.val - 0x050 = 5 * d.val + k.val by omega] using hget

/-- Settles O54: the fields hold by definition, the blank picture and the two parts of memory by their own lemmas. -/
theorem resetLeavesSpecValues : Obligations.ResetLeavesSpecValues := by
  refine ⟨rfl, fun font => ⟨fun r => ?_, rfl, rfl, rfl, rfl, rfl, pixelAt_blank,
    fun a => peek_resetWith_outside_font font, peek_resetWith_glyph font, rfl⟩⟩
  exact Vector.getElem_replicate _

end Sys2Proof.Machine
end

section
/-! PROOFS. Memory: which faults an instruction and a step can raise, what a store leaves for the next fetch, and the
byte order of instruction words (20_memory R52 to R64). -/

namespace Sys2Proof.Machine

variable {s t : State} {i : Instr} {f : Fault}

/-! ### The faults of the shared operations (R52, R203) -/

theorem finish_eq_fault {r : Except Fault State} : finish r = .fault f ↔ r = .error f := by
  cases r <;> simp [finish, raise]

theorem storeBytes_eq_error {a : Nat} {bs : List Byte} (h : storeBytes s a bs = .error f) :
    0x1000 < a + bs.length ∧ f = .memOutOfRange (max a 0x1000) := by
  rcases Nat.lt_or_ge 0x1000 (a + bs.length) with hout | hfit
  · have hne : bs ≠ [] := by rintro rfl; cases h
    rw [storeBytes_error bs s a hout hne] at h
    cases h
    exact ⟨hout, rfl⟩
  · rw [storeBytes_ok bs s a hfit] at h
    cases h

theorem loadRegs_eq_error {a k count : Nat} (hk : k + count ≤ 16) (h : loadRegs s a k count = .error f) :
    0x1000 < a + count ∧ f = .memOutOfRange (max a 0x1000) := by
  rcases Nat.lt_or_ge 0x1000 (a + count) with hout | hfit
  · have hne : count ≠ 0 := by rintro rfl; cases h
    rw [loadRegs_error count s a k hout hne] at h
    cases h
    exact ⟨hout, rfl⟩
  · obtain ⟨v, hv, -⟩ := loadRegs_ok count s a k hfit hk
    rw [hv] at h
    cases h

theorem selectedKey_eq_error {x : RegNum} (h : selectedKey s x = .error f) :
    15 < (s.getV x).toNat ∧ f = .keyIndexOutOfRange (s.getV x) := by
  rcases Nat.lt_or_ge 15 (s.getV x).toNat with hout | hkey
  · rw [selectedKey_error hout] at h
    cases h
    exact ⟨hout, rfl⟩
  · rw [selectedKey_ok hkey] at h
    cases h

theorem plot_eq_error {c : Canvas} {cx cy : Nat} (h : c.plot cx cy = .error f) :
    (63 < cx ∨ 31 < cy) ∧ f = .drawOutOfBounds cx cy := by
  by_cases hon : cx ≤ 63 ∧ cy ≤ 31
  · rw [plot_ok c (by omega) (by omega)] at h
    cases h
  · rw [plot_error c hon] at h
    cases h
    exact ⟨by omega, rfl⟩

theorem drawCols_eq_error {b : Byte} {px cy : Nat} {cols : List Nat} {c : Canvas}
    (h : drawCols b px cy cols c = .error f) : ∃ cx, (63 < cx ∨ 31 < cy) ∧ f = .drawOutOfBounds cx cy := by
  induction cols generalizing c with
  | nil => cases h
  | cons d cols ih =>
    simp only [drawCols] at h
    split at h
    · split at h
      · exact ih h
      · next hplot =>
        cases h
        exact ⟨px + d, plot_eq_error hplot⟩
    · exact ih h

theorem drawRows_eq_error {px py : Nat} {rows : List Nat} {c : Canvas} (h : drawRows s px py rows c = .error f) :
    (∃ a, 0xFFF < a ∧ f = .memOutOfRange a) ∨ ∃ cx cy, (63 < cx ∨ 31 < cy) ∧ f = .drawOutOfBounds cx cy := by
  induction rows generalizing c with
  | nil => cases h
  | cons r rows ih =>
    rw [drawRows, memRead_eq] at h
    by_cases ha : s.index.toNat + r < 0x1000
    · simp only [if_pos ha] at h
      split at h
      · exact ih h
      · next hcols =>
        cases h
        obtain ⟨cx, hcx⟩ := drawCols_eq_error hcols
        exact .inr ⟨cx, py + r, hcx⟩
    · simp only [if_neg ha] at h
      cases h
      exact .inl ⟨s.index.toNat + r, by omega, rfl⟩

/-! ### The fetch (R53, R111) -/

theorem fetch_eq_error (h : fetch s = .error f) : 0xFFE < s.pc.toNat ∧ f = .fetchOutOfRange s.pc := by
  rcases Nat.lt_or_ge 0xFFE s.pc.toNat with hout | hp
  · rw [fetch_error hout] at h
    cases h
    exact ⟨hout, rfl⟩
  · rw [fetch_ok hp] at h
    cases h

/-- A fetch answers exactly in range, with the word whose high byte is the one at pc. -/
theorem fetch_eq_ok {w : Word} : fetch s = .ok w ↔ s.pc.toNat ≤ 0xFFE ∧
    w.toNat = (s.mem.peek s.pc.toNat).toNat * 256 + (s.mem.peek (s.pc.toNat + 1)).toNat := by
  rcases Nat.lt_or_ge 0xFFE s.pc.toNat with hout | hp
  · simp [fetch_error hout, hout]
  · rw [fetch_ok hp, Except.ok.injEq, ← wordOfBytes_toNat, BitVec.toNat_inj, and_iff_right hp, eq_comm]

/-! ### The faults of the handlers and of a step (R240, R250) -/

/-- The faults a handler can raise, by instruction, with the condition on the state it ran on (R244 to R248). -/
inductive HandlerFault (s : State) : Instr → Fault → Prop where
  | ret : s.sp.val = 0 → HandlerFault s .ret (.stackUnderflow (s.pc - 2))
  | call (nnn : Addr12) : s.sp.val = 16 → HandlerFault s (.call nnn) (.stackOverflow (s.pc - 2))
  | skp (x : RegNum) : 15 < (s.getV x).toNat → HandlerFault s (.skp x) (.keyIndexOutOfRange (s.getV x))
  | sknp (x : RegNum) : 15 < (s.getV x).toNat → HandlerFault s (.sknp x) (.keyIndexOutOfRange (s.getV x))
  | ldB (x : RegNum) (a : Nat) : 0xFFF < a → HandlerFault s (.ldB x) (.memOutOfRange a)
  | stRegs (x : RegNum) (a : Nat) : 0xFFF < a → HandlerFault s (.stRegs x) (.memOutOfRange a)
  | ldRegs (x : RegNum) (a : Nat) : 0xFFF < a → HandlerFault s (.ldRegs x) (.memOutOfRange a)
  | drwByte (x y : RegNum) (n : Nibble) (a : Nat) : 0xFFF < a → HandlerFault s (.drw x y n) (.memOutOfRange a)
  | drwPixel (x y : RegNum) (n : Nibble) (cx cy : Nat) : 63 < cx ∨ 31 < cy →
      HandlerFault s (.drw x y n) (.drawOutOfBounds cx cy)

theorem exec_ret_fault (h : exec .ret s = .fault f) : HandlerFault s .ret f := by
  have hpop : popReturn s = .error f := finish_eq_fault.1 h
  by_cases hsp : s.sp.val = 0
  · rw [popReturn_error hsp] at hpop
    cases hpop
    exact .ret hsp
  · rw [popReturn_ok (by omega)] at hpop
    cases hpop

theorem exec_call_fault {nnn : Addr12} (h : exec (.call nnn) s = .fault f) : HandlerFault s (.call nnn) f := by
  simp only [exec, execCall] at h
  by_cases hsp : s.sp.val = 16
  · rw [pushReturn_error hsp] at h
    cases h
    exact .call nnn hsp
  · rw [pushReturn_ok (by omega)] at h
    cases h

/-- A handler that answers a fault raised one of its own instruction's. -/
theorem exec_fault (h : exec i s = .fault f) : HandlerFault s i f := by
  cases i with
  | ret => exact exec_ret_fault h
  | call nnn => exact exec_call_fault h
  | skp x =>
    simp only [exec, execSkp] at h
    split at h
    · cases h
    · next hkey =>
      cases h
      obtain ⟨hx, rfl⟩ := selectedKey_eq_error hkey
      exact .skp x hx
  | sknp x =>
    simp only [exec, execSknp] at h
    split at h
    · cases h
    · next hkey =>
      cases h
      obtain ⟨hx, rfl⟩ := selectedKey_eq_error hkey
      exact .sknp x hx
  | drw x y n =>
    simp only [exec, execDrw] at h
    split at h
    · cases h
    · next hdraw =>
      cases h
      obtain ⟨a, ha, rfl⟩ | ⟨cx, cy, hoff, rfl⟩ := drawRows_eq_error hdraw
      · exact .drwByte x y n a ha
      · exact .drwPixel x y n cx cy hoff
  | ldB x =>
    obtain ⟨-, rfl⟩ := storeBytes_eq_error (finish_eq_fault.1 h)
    exact .ldB x _ (by omega)
  | stRegs x =>
    obtain ⟨-, rfl⟩ := storeBytes_eq_error (finish_eq_fault.1 h)
    exact .stRegs x _ (by omega)
  | ldRegs x =>
    obtain ⟨-, rfl⟩ := loadRegs_eq_error (by omega) (finish_eq_fault.1 h)
    exact .ldRegs x _ (by omega)
  | ldVxK x =>
    simp only [exec, execLdVxK] at h
    split at h <;> cases h
  | _ => cases h

theorem endStep_eq_fault {r : Result} : endStep r = .fault f ↔ r = .fault f := by
  cases r <;> simp [endStep]

theorem step_of_fetch_error (hf : s.faulted = none) (hw : fetch s = .error f) : step s = .fault f := by
  simp [step, cycle, hf, hw, raise]

theorem step_invalidOpcode {w : Word} (hf : s.faulted = none) (hw : fetch s = .ok w) (hd : decodeWord w = none) :
    step s = .fault (.invalidOpcode s.pc w) := by
  simp [step, cycle, hf, hw, hd, raise]

/-- Where the fault of a step with the latch clear comes from: the fetch, the dispatch or the handler (R110). -/
theorem step_fault (hf : s.faulted = none) (h : step s = .fault f) :
    fetch s = .error f ∨
    ∃ w, fetch s = .ok w ∧
      (decodeWord w = none ∧ f = .invalidOpcode s.pc w ∨
        ∃ i, decodeWord w = some i ∧ HandlerFault s.advance i f) := by
  cases hw : fetch s with
  | error g =>
    rw [step_of_fetch_error hf hw] at h
    cases h
    exact .inl rfl
  | ok w =>
    refine .inr ⟨w, rfl, ?_⟩
    cases hd : decodeWord w with
    | none =>
      rw [step_invalidOpcode hf hw hd] at h
      cases h
      exact .inl ⟨rfl, rfl⟩
    | some i =>
      have hrun : step s = endStep (exec i s.advance) := by simp [step, cycle, hf, hw, hd]
      exact .inr ⟨i, rfl, exec_fault (endStep_eq_fault.1 (hrun ▸ h))⟩

/-- Settles O9: of the three places a step's fault comes from, only the dispatch raises InvalidOpcode, and it names the
fetched word. -/
theorem invalidOpcodeNamesWord : Obligations.InvalidOpcodeNamesWord := by
  intro s a w hf
  constructor
  · intro h
    obtain hfetch | ⟨v, hv, ⟨hd, hrecord⟩ | ⟨i, -, hhandler⟩⟩ := step_fault hf h
    · cases (fetch_eq_error hfetch).2
    · cases hrecord
      obtain ⟨hp, hw⟩ := fetch_eq_ok.1 hv
      exact ⟨hp, rfl, hw, hd⟩
    · cases hhandler
  · rintro ⟨hp, rfl, hw, hd⟩
    exact step_invalidOpcode hf (fetch_eq_ok.2 ⟨hp, hw⟩) hd

/-! ### A stored word and the next fetch (R57, R64) -/

/-- LD [I],Vx answers only where its last byte is inside memory, and writes the run of registers from I on (R184). -/
theorem exec_stRegs_next {x : RegNum} (h : exec (.stRegs x) s = .next t) :
    baseAddr s + x.toNat ≤ 0xFFF ∧ t = s.setMem (s.mem.pokes (baseAddr s) (regsUpTo s x)) := by
  have hstore : storeBytes s (baseAddr s) (regsUpTo s x) = .ok t := finish_eq_next.1 h
  have hlen : (regsUpTo s x).length = x.toNat + 1 := regsUpTo_length s x
  rcases Nat.lt_or_ge 0xFFF (baseAddr s + x.toNat) with hout | hfit
  · rw [storeBytes_error _ s _ (by omega) (List.ne_nil_of_length_eq_add_one hlen)] at hstore
    cases hstore
  · rw [storeBytes_ok _ s _ (by omega)] at hstore
    cases hstore
    exact ⟨hfit, rfl⟩

/-- The byte at I + k after the store is the value of register k (R184). -/
theorem peek_pokes_regsUpTo (m : Memory) (a : Nat) (s : State) {x : RegNum} {k : Nat} (hk : k ≤ x.toNat) :
    (m.pokes a (regsUpTo s x)).peek (a + k) = s.getV (BitVec.ofNat 4 k) := by
  have hin : a ≤ a + k ∧ a + k < a + (regsUpTo s x).length := by simp; omega
  rw [Memory.peek_pokes, dif_pos hin, regsUpTo_getElem, Nat.add_sub_cancel_left]

/-- Settles O51: the fetch at I reads the bytes of V0 and V1, the first of them as the high byte. -/
theorem storedWordIsFetched : Obligations.StoredWordIsFetched := by
  intro x s t hx h hpc
  obtain ⟨hfit, rfl⟩ := exec_stRegs_next h
  have hbase : s.pc.toNat = baseAddr s := congrArg BitVec.toNat hpc
  have hhi : (s.mem.pokes (baseAddr s) (regsUpTo s x)).peek (baseAddr s) = s.getV 0 :=
    peek_pokes_regsUpTo s.mem (baseAddr s) s (Nat.zero_le _)
  have hlo : (s.mem.pokes (baseAddr s) (regsUpTo s x)).peek (baseAddr s + 1) = s.getV 1 :=
    peek_pokes_regsUpTo s.mem (baseAddr s) s hx
  refine ⟨wordOfBytes (s.getV 0) (s.getV 1), fetch_eq_ok.2 ?_, wordOfBytes_toNat _ _⟩
  rw [State.setMem_pc, State.setMem_mem, hbase, hhi, hlo]
  exact ⟨by omega, wordOfBytes_toNat _ _⟩

/-! ### Sample words in memory order (R53, R80) -/

/-- Settles O6: each pair of bytes is one closed decode, the first byte the high one. -/
theorem sampleWordsDecode : Obligations.SampleWordsDecode :=
  ⟨rfl, rfl, rfl, rfl, rfl, rfl, rfl, rfl, rfl, rfl, rfl⟩

end Sys2Proof.Machine
end

section
/-! PROOFS. Encoding: a word decodes to an instruction exactly when it selects the instruction's row of the opcode table
and holds its operands, and which words select no row (30_encoding R80 to R95). -/

namespace Sys2Proof.Laws.F

/-- The per-instruction lemmas as one: every standard spelling stands in its own row and in no other (R95). -/
theorem statement : (i : Instr) → Statement i
  | .cls => cls
  | .ret => ret
  | .jp nnn => jp nnn
  | .call nnn => call nnn
  | .seImm x kk => seImm x kk
  | .sneImm x kk => sneImm x kk
  | .seReg x y => seReg x y
  | .ldImm x kk => ldImm x kk
  | .addImm x kk => addImm x kk
  | .ldReg x y => ldReg x y
  | .orReg x y => orReg x y
  | .andReg x y => andReg x y
  | .xorReg x y => xorReg x y
  | .addReg x y => addReg x y
  | .subReg x y => subReg x y
  | .shr x => shr x
  | .subnReg x y => subnReg x y
  | .shl x => shl x
  | .sneReg x y => sneReg x y
  | .ldI nnn => ldI nnn
  | .jpV0 nnn => jpV0 nnn
  | .rnd x kk => rnd x kk
  | .drw x y n => drw x y n
  | .skp x => skp x
  | .sknp x => sknp x
  | .ldVxDt x => ldVxDt x
  | .ldVxK x => ldVxK x
  | .ldDtVx x => ldDtVx x
  | .ldStVx x => ldStVx x
  | .addI x => addI x
  | .ldF x => ldF x
  | .ldB x => ldB x
  | .stRegs x => stRegs x
  | .ldRegs x => ldRegs x

end Sys2Proof.Laws.F

namespace Sys2Proof

variable {w : Word} {i : Instr} {m : String} {p : Word}

/-! ### The keys of a row, read from its pattern (R84, R85) -/

theorem selects_op_iff (hp : p = wordA (fieldOp p) 0) :
    OpcodeRow.selects ⟨m, 0xF000, p⟩ w = true ↔ fieldOp w = fieldOp p := by
  rw [Laws.F.selects_op (fieldOp p) hp, decide_eq_true_eq]

theorem selects_op_n_iff (hp : p = wordXYN (fieldOp p) 0 0 (fieldN p)) :
    OpcodeRow.selects ⟨m, 0xF00F, p⟩ w = true ↔ fieldOp w = fieldOp p ∧ fieldN w = fieldN p := by
  rw [Laws.F.selects_op_n (fieldOp p) (fieldN p) hp, decide_eq_true_eq]

theorem selects_op_kk_iff (hp : p = wordXK (fieldOp p) 0 (fieldKk p)) :
    OpcodeRow.selects ⟨m, 0xF0FF, p⟩ w = true ↔ fieldOp w = fieldOp p ∧ fieldKk w = fieldKk p := by
  rw [Laws.F.selects_op_kk (fieldOp p) (fieldKk p) hp, decide_eq_true_eq]

/-! ### The re-dispatch of the four families (R85) -/

theorem decodeWord_family0 (hop : fieldOp w = 0x0) : decodeWord w = family0 w := by
  rw [decodeWord, hop]; rfl

theorem decodeWord_family8 (hop : fieldOp w = 0x8) : decodeWord w = family8 w := by
  rw [decodeWord, hop]; rfl

theorem decodeWord_familyE (hop : fieldOp w = 0xE) : decodeWord w = familyE w := by
  rw [decodeWord, hop]; rfl

theorem decodeWord_familyF (hop : fieldOp w = 0xF) : decodeWord w = familyF w := by
  rw [decodeWord, hop]; rfl

/-! ### Decoding a word is finding its row and reading its operands -/

/-- The instruction of the same form whose operands are the fields of a word (R81, R82). -/
def Instr.withFields (w : Word) : Instr → Instr
  | .cls => .cls
  | .ret => .ret
  | .jp _ => .jp (fieldNnn w)
  | .call _ => .call (fieldNnn w)
  | .seImm _ _ => .seImm (fieldX w) (fieldKk w)
  | .sneImm _ _ => .sneImm (fieldX w) (fieldKk w)
  | .seReg _ _ => .seReg (fieldX w) (fieldY w)
  | .ldImm _ _ => .ldImm (fieldX w) (fieldKk w)
  | .addImm _ _ => .addImm (fieldX w) (fieldKk w)
  | .ldReg _ _ => .ldReg (fieldX w) (fieldY w)
  | .orReg _ _ => .orReg (fieldX w) (fieldY w)
  | .andReg _ _ => .andReg (fieldX w) (fieldY w)
  | .xorReg _ _ => .xorReg (fieldX w) (fieldY w)
  | .addReg _ _ => .addReg (fieldX w) (fieldY w)
  | .subReg _ _ => .subReg (fieldX w) (fieldY w)
  | .shr _ => .shr (fieldX w)
  | .subnReg _ _ => .subnReg (fieldX w) (fieldY w)
  | .shl _ => .shl (fieldX w)
  | .sneReg _ _ => .sneReg (fieldX w) (fieldY w)
  | .ldI _ => .ldI (fieldNnn w)
  | .jpV0 _ => .jpV0 (fieldNnn w)
  | .rnd _ _ => .rnd (fieldX w) (fieldKk w)
  | .drw _ _ _ => .drw (fieldX w) (fieldY w) (fieldN w)
  | .skp _ => .skp (fieldX w)
  | .sknp _ => .sknp (fieldX w)
  | .ldVxDt _ => .ldVxDt (fieldX w)
  | .ldVxK _ => .ldVxK (fieldX w)
  | .ldDtVx _ => .ldDtVx (fieldX w)
  | .ldStVx _ => .ldStVx (fieldX w)
  | .addI _ => .addI (fieldX w)
  | .ldF _ => .ldF (fieldX w)
  | .ldB _ => .ldB (fieldX w)
  | .stRegs _ => .stRegs (fieldX w)
  | .ldRegs _ => .ldRegs (fieldX w)

/-- A word that selects an instruction's row decodes to that instruction, its operands read from the word. -/
theorem decodeWord_of_selects (h : i.row.selects w = true) : decodeWord w = some (i.withFields w) := by
  cases i
  case cls | ret =>
    obtain ⟨hop, hn⟩ := (selects_op_n_iff (by decide)).1 h
    rw [decodeWord_family0 hop, family0, hn]; rfl
  case ldReg | orReg | andReg | xorReg | addReg | subReg | shr | subnReg | shl =>
    obtain ⟨hop, hn⟩ := (selects_op_n_iff (by decide)).1 h
    rw [decodeWord_family8 hop, family8, hn]; rfl
  case skp | sknp =>
    obtain ⟨hop, hn⟩ := (selects_op_n_iff (by decide)).1 h
    rw [decodeWord_familyE hop, familyE, hn]; rfl
  case ldVxDt | ldVxK | ldDtVx | ldStVx | addI | ldF | ldB | stRegs | ldRegs =>
    obtain ⟨hop, hkk⟩ := (selects_op_kk_iff (by decide)).1 h
    rw [decodeWord_familyF hop, familyF, hkk]; rfl
  case jp | call | seImm | sneImm | seReg | ldImm | addImm | sneReg | ldI | jpV0 | rnd | drw =>
    have hop := (selects_op_iff (by decide)).1 h
    rw [decodeWord, hop]; rfl

/-- Conversely, whichever entry of the two levels answers, the keys that led to it are those of the answer's row. -/
theorem decodeWord_eq_some (h : decodeWord w = some i) : i.row.selects w = true ∧ i.withFields w = i := by
  rw [decodeWord] at h
  split at h
  case h_1 hop | h_9 hop | h_15 hop => -- families 0x0, 0x8 and 0xE: the low nibble decides
    simp only [family0, family8, familyE] at h
    split at h <;> cases h
    all_goals exact ⟨(selects_op_n_iff (by decide)).2 ⟨BitVec.eq_of_toNat_eq hop, BitVec.eq_of_toNat_eq ‹_›⟩, rfl⟩
  case h_16 => -- family 0xF: the low byte decides
    simp only [imp_false] at *
    have hop : (fieldOp w).toNat = 0xF := by omega
    rw [familyF] at h
    split at h <;> cases h
    all_goals exact ⟨(selects_op_kk_iff (by decide)).2 ⟨BitVec.eq_of_toNat_eq hop, BitVec.eq_of_toNat_eq ‹_›⟩, rfl⟩
  all_goals -- the handler entries
    cases h
    exact ⟨(selects_op_iff (by decide)).2 (BitVec.eq_of_toNat_eq ‹_›), rfl⟩

/-- The two-level dispatch and the opcode table are one decoder: a word decodes to the instruction whose row it selects
and whose operands are its fields (R84, R85, R95). -/
theorem decodeWord_eq_some_iff : decodeWord w = some i ↔ i.row.selects w = true ∧ i.withFields w = i :=
  ⟨decodeWord_eq_some, fun ⟨hsel, hops⟩ => by rw [decodeWord_of_selects hsel, hops]⟩

/-! ### The round trip (R80) -/

theorem withFields_encodeWord (i : Instr) : i.withFields (encodeWord i) = i := by
  cases i <;> simp [Instr.withFields, encodeWord]

theorem decodeWord_encodeWord (i : Instr) : decodeWord (encodeWord i) = some i := by
  obtain ⟨-, hsel, -⟩ := Laws.F.statement i
  exact decodeWord_eq_some_iff.2 ⟨hsel, withFields_encodeWord i⟩

/-- Settles O1: the standard spelling selects the instruction's row and holds its operands in their fields. -/
theorem decodeOfEncodeIsInstr : Obligations.DecodeOfEncodeIsInstr := by
  intro i rest
  rw [encode, List.cons_append, List.cons_append, List.nil_append, decode_bytes, decodeWord_encodeWord]

/-! ### The opcode table (R95) -/

theorem exists_row_of_mem {r : OpcodeRow} (hr : r ∈ opcodeTable) : ∃ i : Instr, i.row = r := by
  simp only [opcodeTable, List.mem_append, List.mem_map] at hr
  obtain ((⟨i, -, hi⟩ | ⟨i, -, hi⟩) | ⟨i, -, hi⟩) | ⟨i, -, hi⟩ := hr <;> exact ⟨i, hi⟩

theorem decodeWord_eq_none_iff_wordLegal : decodeWord w = none ↔ wordLegal w = false := by
  rw [wordLegal, List.any_eq_false]
  constructor
  · intro hnone r hr hsel
    obtain ⟨i, rfl⟩ := exists_row_of_mem hr
    cases hnone.symm.trans (decodeWord_of_selects hsel)
  · intro hall
    cases hd : decodeWord w with
    | none => rfl
    | some i =>
      obtain ⟨hsel, -⟩ := decodeWord_eq_some hd
      exact absurd hsel (hall i.row (Laws.F.row_mem i))

/-- Settles O2: a decoded word selects its instruction's row, and a word selects at most one row. -/
theorem decodeAgreesWithOpcodeTable : Obligations.DecodeAgreesWithOpcodeTable := by
  refine fun w => ⟨fun i hd => ⟨Laws.F.row_mem i, fun r hr => ?_⟩, decodeWord_eq_none_iff_wordLegal⟩
  obtain ⟨hsel, -⟩ := decodeWord_eq_some hd
  exact ⟨fun h => Laws.F.selects_unique hr (Laws.F.row_mem i) h hsel, fun h => h ▸ hsel⟩

/-! ### Invalid words (R92) -/

theorem family0_eq_none_iff : family0 w = none ↔ fieldN w ∉ [0x0, 0xE] := by
  rw [family0]
  split <;> simp_all [BitVec.toNat_eq]

theorem family8_eq_none_iff : family8 w = none ↔ fieldN w ∈ [0x8, 0x9, 0xA, 0xB, 0xC, 0xD, 0xF] := by
  rw [family8]
  split
  case h_10 => -- a low nibble that is none of the nine keys
    simp only [imp_false] at *
    simp only [List.mem_cons, List.not_mem_nil, or_false, true_iff, BitVec.toNat_eq, BitVec.reduceToNat]
    omega
  all_goals simp [BitVec.toNat_eq, *]

theorem familyE_eq_none_iff : familyE w = none ↔ fieldN w ∉ [0x1, 0xE] := by
  rw [familyE]
  split <;> simp_all [BitVec.toNat_eq]

theorem familyF_eq_none_iff :
    familyF w = none ↔ fieldKk w ∉ [0x07, 0x0A, 0x15, 0x18, 0x1E, 0x29, 0x33, 0x55, 0x65] := by
  rw [familyF]
  split <;> simp_all [BitVec.toNat_eq]

/-- Only the entries of the four families can be unpopulated (R86, R92). -/
theorem decodeWord_eq_none_iff : decodeWord w = none ↔
    (fieldOp w = 0x0 ∧ family0 w = none) ∨ (fieldOp w = 0x8 ∧ family8 w = none) ∨
    (fieldOp w = 0xE ∧ familyE w = none) ∨ (fieldOp w = 0xF ∧ familyF w = none) := by
  rw [decodeWord]
  split
  case h_16 => -- family 0xF is the last entry
    simp only [imp_false] at *
    have hop : (fieldOp w).toNat = 0xF := by omega
    simp [BitVec.toNat_eq, hop]
  all_goals simp [BitVec.toNat_eq, *]

/-- Settles O3: only the four families have unpopulated slots, each its own. -/
theorem invalidWordsAreR92 : Obligations.InvalidWordsAreR92 := by
  intro w
  rw [decodeWord_eq_none_iff, family0_eq_none_iff, family8_eq_none_iff, familyE_eq_none_iff, familyF_eq_none_iff]
  rfl

/-! ### The keys alone select (R85, R91) -/

theorem decodeWord_of_key (i : Instr) (h : w &&& i.row.mask = i.row.pattern) :
    decodeWord w = some (i.withFields w) :=
  decodeWord_of_selects (beq_iff_eq.2 h)

/-- Settles O4: each of these rows masks no ignored bit. -/
theorem ignoredBitsSelectNothing : Obligations.IgnoredBitsSelectNothing := fun _ =>
  ⟨decodeWord_of_key .cls, decodeWord_of_key .ret, decodeWord_of_key (.seReg 0 0), decodeWord_of_key (.sneReg 0 0),
    decodeWord_of_key (.skp 0), decodeWord_of_key (.sknp 0), decodeWord_of_key (.shr 0), decodeWord_of_key (.shl 0)⟩

/-- Settles O5: each key is that of one row, whose instruction reads its operands from their fields. -/
theorem keysGiveOperandFields : Obligations.KeysGiveOperandFields := fun _ =>
  ⟨decodeWord_of_key (.jp 0), decodeWord_of_key (.call 0), decodeWord_of_key (.sneImm 0 0),
    decodeWord_of_key (.addImm 0 0), decodeWord_of_key (.ldI 0), decodeWord_of_key (.jpV0 0),
    decodeWord_of_key (.rnd 0 0), decodeWord_of_key (.drw 0 0 0), decodeWord_of_key (.ldReg 0 0),
    decodeWord_of_key (.orReg 0 0), decodeWord_of_key (.andReg 0 0), decodeWord_of_key (.xorReg 0 0),
    decodeWord_of_key (.addReg 0 0), decodeWord_of_key (.subReg 0 0), decodeWord_of_key (.subnReg 0 0),
    decodeWord_of_key (.ldVxDt 0), decodeWord_of_key (.ldVxK 0), decodeWord_of_key (.ldDtVx 0),
    decodeWord_of_key (.ldStVx 0), decodeWord_of_key (.addI 0), decodeWord_of_key (.ldF 0),
    decodeWord_of_key (.ldB 0), decodeWord_of_key (.stRegs 0), decodeWord_of_key (.ldRegs 0)⟩

end Sys2Proof
end

section
/-! PROOFS. The step cycle: a step runs the instruction whose bytes stand at pc and then ticks both timers, and an idle
loop comes back to itself (40_step_cycle R110 to R121). -/

namespace Sys2Proof.Machine

variable {s t : State} {i : Instr}

/-! ### The handler around which a step is built (R110) -/

theorem decode_pair_of_decodeWord {hi lo : Byte} (h : decodeWord (wordOfBytes hi lo) = some i) :
    decode [hi, lo] = .ok (i, []) := by
  simp [decode, h]

/-- A step of a known instruction that answers ran its handler, then ticked and took the next inputs (R110, R114). -/
theorem step_next_of_decode (h : step s = .next t)
    (hdec : decode [s.mem.peek s.pc.toNat, s.mem.peek (s.pc.toNat + 1)] = .ok (i, [])) :
    ∃ u, exec i s.advance = .next u ∧ t = u.tick.nextInputs := by
  obtain ⟨j, u, -, -, hj, hu, ht⟩ := step_next h
  obtain rfl : j = i := Option.some.inj (hj.symm.trans (decodeWord_of_decode_pair hdec))
  exact ⟨u, hu, ht⟩

theorem finish_ne_refused (r : Except Fault State) (q : Refusal) : finish r ≠ .refused q := by
  cases r <;> simp [finish, raise]

/-- Every instruction has a meaning: a handler answers or faults, and only the latch refuses a step (R120). -/
theorem exec_ne_refused (i : Instr) (s : State) (q : Refusal) : exec i s ≠ .refused q := by
  intro h
  cases i with
  | ret | ldB x | stRegs x | ldRegs x => exact finish_ne_refused _ q h
  | call nnn =>
    simp only [exec, execCall] at h
    split at h <;> cases h
  | drw x y n =>
    simp only [exec, execDrw] at h
    split at h <;> cases h
  | skp x | sknp x =>
    simp only [exec, execSkp, execSknp] at h
    split at h <;> cases h
  | ldVxK x =>
    simp only [exec, execLdVxK] at h
    split at h <;> cases h
  | _ => cases h

/-- Settles O7: a step is `endStep` of the handler's outcome, which ticks a next state and passes a fault on. -/
theorem stepRunsDecodedInstruction : Obligations.StepRunsDecodedInstruction := by
  intro s i hf hpc hdec _
  have hrun : step s = endStep (exec i s.advance) := step_eq hf hpc (decodeWord_of_decode_pair hdec)
  exact ⟨fun h he => hrun.trans (congrArg endStep he), fun f he => hrun.trans (congrArg endStep he),
    exec_ne_refused i _⟩

/-! ### The timers (R114, R115) -/

theorem tick_nextInputs_dt_toNat (u : State) : u.tick.nextInputs.dt.toNat = u.dt.toNat - 1 := tickDown_toNat u.dt

theorem tick_nextInputs_st_toNat (u : State) : u.tick.nextInputs.st.toNat = u.st.toNat - 1 := tickDown_toNat u.st

/-- Settles O12: the next state is the handler's, ticked, and the inputs after it touch no timer. -/
theorem timersTickAfterHandler : Obligations.TimersTickAfterHandler := by
  intro s t h
  obtain ⟨i, u, -, -, hd, hu, rfl⟩ := step_next h
  exact ⟨i, u, decode_pair_of_decodeWord hd, hu, tick_nextInputs_dt_toNat u, tick_nextInputs_st_toNat u⟩

theorem Frame.dt_eq {w : Writes} (h : Frame w s t) (hw : w.dt = false) : t.dt = s.dt := by
  obtain ⟨-, -, -, -, -, hdt, -⟩ := h
  exact hdt hw

theorem Frame.st_eq {w : Writes} (h : Frame w s t) (hw : w.st = false) : t.st = s.st := by
  obtain ⟨-, -, -, -, -, -, hst, -⟩ := h
  exact hst hw

/-- Settles O13: LD DT,Vx and LD ST,Vx hand the tick the value of V[x]; every other handler, by its frame, hands it the
timers as they were. -/
theorem writtenTimerLosesOneCount : Obligations.WrittenTimerLosesOneCount := by
  intro s t i h hdec
  obtain ⟨u, hu, rfl⟩ := step_next_of_decode h hdec
  rw [tick_nextInputs_dt_toNat, tick_nextInputs_st_toNat]
  cases i with
  | ldDtVx x | ldStVx x => cases hu; exact ⟨rfl, rfl⟩
  | _ => rw [(exec_frame hu).dt_eq rfl, (exec_frame hu).st_eq rfl]; exact ⟨rfl, rfl⟩

/-! ### The idle loop (R121, R131) -/

/-- An address up to 0xFFE survives its 12-bit operand field (R83). -/
theorem zextAddr_setWidth {w : Word} (h : w.toNat ≤ 0xFFE) : zextAddr (w.setWidth 12) = w := by
  apply BitVec.eq_of_toNat_eq
  rw [zextAddr_toNat, BitVec.toNat_setWidth]
  omega

/-- The step of an idle state jumps to pc: beside the tick and the next inputs nothing happens (R121, R131). -/
theorem step_of_idle (h : s.idle = true) : step s = .next s.tick.nextInputs := by
  obtain ⟨hf, hpc, hword⟩ := s.idle_iff.1 h
  have hdec := hword ▸ decodeWord_encodeWord (.jp (s.pc.setWidth 12))
  have hback : s.advance.setPc (zextAddr (s.pc.setWidth 12)) = s := by
    rw [zextAddr_setWidth hpc]; rfl
  calc step s = endStep (exec (.jp (s.pc.setWidth 12)) s.advance) := step_eq hf hpc hdec
    _ = endStep (.next s) := congrArg (fun u => endStep (.next u)) hback

/-- Settles O55: the next state is this one but for the timers and the inputs, none of which idleness looks at. -/
theorem idleLoopStays : Obligations.IdleLoopStays := by
  intro s h
  have hidle : s.tick.nextInputs.idle = true := (State.idle_congr rfl rfl rfl).trans h
  obtain ⟨hlatch, -⟩ := s.idle_iff.1 h
  exact ⟨s.tick.nextInputs, step_of_idle h, hidle, hlatch, rfl, rfl, rfl, rfl, rfl, rfl, rfl,
    tick_nextInputs_dt_toNat s, tick_nextInputs_st_toNat s⟩

end Sys2Proof.Machine
end

section
/-! PROOFS. Control transfer: where a jump, a skip, CALL and RET leave pc and the stack, and which of them faults
(41_control_flow R130 to R137). -/

namespace Sys2Proof.Machine

variable {s : State} {i : Instr}

/-! ### CALL and RET (R130, R132) -/

theorem exec_call_of_lt (nnn : Addr12) (h : s.sp.val < 16) : exec (.call nnn) s =
    .next ((s.setStack (s.stack.set s.sp.val s.pc h) ⟨s.sp.val + 1, by omega⟩).setPc (zextAddr nnn)) := by
  simp only [exec, execCall, pushReturn_ok h]

theorem exec_call_of_full (nnn : Addr12) (h : s.sp.val = 16) :
    exec (.call nnn) s = .fault (.stackOverflow (s.pc - 2)) := by
  simp only [exec, execCall, pushReturn_error h, raise]

theorem exec_ret_of_pos (h : 0 < s.sp.val) : exec .ret s =
    .next ((s.setStack s.stack ⟨s.sp.val - 1, by omega⟩).setPc (s.stack[s.sp.val - 1]'(by omega))) :=
  finish_eq_next.2 (popReturn_ok h)

theorem exec_ret_of_empty (h : s.sp.val = 0) : exec .ret s = .fault (.stackUnderflow (s.pc - 2)) :=
  finish_eq_fault.2 (popReturn_error h)

/-- Settles O36: the push writes slot sp alone, and there is no slot 16. -/
theorem callPushesReturn : Obligations.CallPushesReturn := by
  intro nnn s
  refine ⟨fun hsp => ?_, exec_call_of_full nnn⟩
  have hcall := exec_call_of_lt nnn hsp
  exact ⟨_, hcall, zextAddr_toNat nnn, rfl, Vector.getElem?_set_self hsp,
    fun k hk => Vector.getElem?_set_ne hsp hk.symm, exec_frame hcall⟩

/-- Settles O37: the pop reads slot sp - 1 and moves sp, and there is no slot below 0. -/
theorem retPopsReturn : Obligations.RetPopsReturn := by
  intro s
  refine ⟨fun hsp => ?_, exec_ret_of_empty⟩
  have hret := exec_ret_of_pos hsp
  exact ⟨_, hret, Vector.getElem?_eq_getElem _, rfl, rfl, exec_frame hret⟩

/-- Settles O38: the slot the pop reads is the one the push wrote. -/
theorem callThenRetReturns : Obligations.CallThenRetReturns := by
  intro nnn s t u hcall hstack hsp
  obtain ⟨hfree, rfl⟩ := exec_call_next hcall
  have hdepth : u.sp.val = s.sp.val + 1 := congrArg Fin.val hsp
  obtain ⟨v, hret, hpop, hdown, -⟩ := (retPopsReturn u).1 (by omega)
  refine ⟨v, hret, ?_, Fin.ext (by omega)⟩
  have hpush : u.stack[u.sp.val - 1]? = some s.pc := by
    rw [hstack, hdepth, Nat.add_sub_cancel]
    exact Vector.getElem?_set_self hfree
  exact Option.some.inj (hpop.symm.trans hpush)

/-! ### Skips (R133 to R136) -/

/-- An instruction whose meaning is a skip always completes, and moves pc alone, by 2 where its condition holds. -/
theorem exec_skip {c : Bool} (h : exec i s = .next (skipIf c s)) :
    ∃ t, exec i s = .next t ∧ t.pc = (if c then s.pc + 2 else s.pc) ∧ Frame { pc := true } s t :=
  ⟨skipIf c s, h, congrArg State.pc (skipIf_eq c s), (WritesOnly.of_skipIf c rfl).frame⟩

/-- Settles O39: the key 0x3 stands in one row of the table, whose instruction is a skip on V[x] = kk. -/
theorem seImmSkipsWhenEqual : Obligations.SeImmSkipsWhenEqual := by
  refine ⟨fun _ => decodeWord_of_key (.seImm 0 0), fun x kk s => ?_⟩
  obtain ⟨t, ht, hpc, hframe⟩ := exec_skip (i := .seImm x kk) (s := s) rfl
  exact ⟨t, ht, fun heq => by simp [hpc, heq], fun hne => by simp [hpc, hne], hframe⟩

/-- Settles O40: each of the three is a skip, SNE on the negated comparison. -/
theorem registerSkips : Obligations.RegisterSkips := by
  intro x y kk s
  have hsneImm := exec_skip (i := .sneImm x kk) (s := s) rfl
  have hseReg := exec_skip (i := .seReg x y) (s := s) rfl
  have hsneReg := exec_skip (i := .sneReg x y) (s := s) rfl
  simp only [bne_iff_ne, beq_iff_eq, ne_eq, ite_not] at hsneImm hseReg hsneReg
  exact ⟨hsneImm, hseReg, hsneReg⟩

/-! ### Jumps (R131, R137) -/

/-- A byte and a 12-bit address do not carry out of 16 bits (R137). -/
theorem zextByte_add_zextAddr_toNat (b : Byte) (nnn : Addr12) :
    (zextByte b + zextAddr nnn).toNat = b.toNat + nnn.toNat := by
  rw [BitVec.toNat_add, zextByte_toNat, zextAddr_toNat]
  omega

/-- Settles O35: both targets are at most 0x10FE, so a 16-bit pc holds them. -/
theorem jumpsSetPc : Obligations.JumpsSetPc := fun nnn s =>
  ⟨⟨_, rfl, zextAddr_toNat nnn, exec_frame (i := .jp nnn) rfl⟩,
    ⟨_, rfl, zextByte_add_zextAddr_toNat (s.getV 0) nnn, exec_frame (i := .jpV0 nnn) rfl⟩⟩

end Sys2Proof.Machine
end

section
/-! PROOFS. Register loads and the arithmetic unit: what each instruction leaves in its register and in VF, and that
nothing else changes (42_alu R150 to R163). -/

namespace Sys2Proof.Machine

variable {s : State} {i : Instr} {x : RegNum}

/-! ### The values of the flags (R162) -/

theorem greaterFlag_toNat (a b : Byte) : (greaterFlag a b).toNat = if a.toNat > b.toNat then 1 else 0 := by
  simp only [greaterFlag, flag_toNat, decide_eq_true_eq]

theorem lowBitFlag_toNat (a : Byte) : (lowBitFlag a).toNat = a.toNat % 2 := by
  rw [lowBitFlag, flag_toNat, BitVec.getLsbD, Nat.testBit_zero]
  simp only [decide_eq_true_eq]
  split <;> omega

theorem highBitFlag_toNat (a : Byte) : (highBitFlag a).toNat = a.toNat / 128 := by
  have ha : a.toNat < 256 := a.isLt
  rw [highBitFlag, flag_toNat, BitVec.getLsbD, Nat.testBit_eq_decide_div_mod_eq]
  simp only [decide_eq_true_eq]
  split <;> omega

/-! ### Results beside their flags (R156 to R160) -/

/-- The carry is the ninth bit of the sum (R156). -/
theorem add_toNat_add_carryFlag (a b : Byte) :
    (a + b).toNat + 256 * (carryFlag a b).toNat = a.toNat + b.toNat := by
  rw [carryFlag, flag_toNat, BitVec.toNat_add]
  simp only [decide_eq_true_eq]
  split <;> omega

theorem byte_sub_toNat (a b : Byte) : (a - b).toNat = (a.toNat + 256 - b.toNat) % 256 := by
  rw [BitVec.toNat_sub]
  omega

theorem shiftRight_one_toNat (a : Byte) : (a >>> 1).toNat = a.toNat / 2 := by
  rw [BitVec.toNat_ushiftRight, Nat.shiftRight_one]

theorem shiftLeft_one_toNat (a : Byte) : (a <<< 1).toNat = 2 * a.toNat % 256 := by
  rw [BitVec.toNat_shiftLeft, Nat.shiftLeft_eq, Nat.mul_comm, Nat.pow_one]

/-! ### Instructions that write one register -/

/-- An instruction whose meaning is one register write always completes, and changes that register alone. -/
theorem exec_oneReg {b : Byte} (h : exec i s = .next (s.setV x b)) :
    ∃ t, exec i s = .next t ∧ t.getV x = b ∧ Frame { regs := oneReg x } s t :=
  ⟨_, h, s.getV_setV_same x b, (WritesOnly.setV x b (oneReg_self x) .refl).frame⟩

/-- Settles O21: the key 0x6 stands in one row of the table, whose instruction is the write of kk. -/
theorem ldImmLoadsImmediate : Obligations.LdImmLoadsImmediate :=
  ⟨fun _ => decodeWord_of_key (.ldImm 0 0), fun _ _ _ => exec_oneReg rfl⟩

/-- Settles O22: the one write is of the 8-bit sum. -/
theorem addImmWrapsNoFlag : Obligations.AddImmWrapsNoFlag := by
  intro x kk s
  obtain ⟨t, ht, hx, hframe⟩ := exec_oneReg (i := .addImm x kk) (s := s) rfl
  exact ⟨t, ht, hx ▸ BitVec.toNat_add _ _, hframe⟩

/-- The bits of the register after such an instruction, given those of the value written. -/
theorem exec_oneReg_bits {b : Byte} {bits : Nat → Bool} (h : exec i s = .next (s.setV x b))
    (hb : ∀ k, b.getLsbD k = bits k) :
    ∃ t, exec i s = .next t ∧ (∀ k, (t.getV x).getLsbD k = bits k) ∧ Frame { regs := oneReg x } s t := by
  obtain ⟨t, ht, rfl, hframe⟩ := exec_oneReg h
  exact ⟨t, ht, hb, hframe⟩

/-- Settles O23: each of the four is one write, and a bitwise operation acts on each bit alone. -/
theorem copyAndLogic : Obligations.CopyAndLogic := fun _ _ _ =>
  ⟨exec_oneReg rfl, exec_oneReg_bits rfl fun _ => BitVec.getLsbD_or, exec_oneReg_bits rfl fun _ => BitVec.getLsbD_and,
    exec_oneReg_bits rfl fun _ => BitVec.getLsbD_xor⟩

/-- Settles O28: the one write is of the presented byte masked with kk. -/
theorem rndMasksInput : Obligations.RndMasksInput := fun _ _ _ _ =>
  exec_oneReg_bits rfl fun _ => BitVec.getLsbD_and

/-! ### Instructions that write VF and then a register (R12, R163) -/

/-- An instruction whose meaning is a flag write and then a register write always completes, and changes no more. The
second write is of what `result` gives on the state the first left; for x = 15 it overwrites the flag. -/
theorem exec_flagThenReg {f : Byte} {result : State → Byte}
    (h : exec i s = .next ((s.setV vf f).setV x (result (s.setV vf f)))) :
    ∃ t, exec i s = .next t ∧ t.getV x = result (s.setV vf f) ∧ (x ≠ vf → t.getV vf = f) ∧
      Frame { regs := regAndFlag x } s t := by
  refine ⟨_, h, State.getV_setV_same _ x _, fun hx => ?_,
    (WritesOnly.setV x _ (regAndFlag_self x) (.setV vf f (regAndFlag_vf x) .refl)).frame⟩
  rw [State.getV_setV_other _ _ hx.symm, State.getV_setV_same]

/-- Settles O24: the sum is of the registers before any write, and the carry is its ninth bit. -/
theorem addRegSumAndCarry : Obligations.AddRegSumAndCarry := by
  intro x y s
  obtain ⟨t, ht, hx, hflag, hframe⟩ :=
    exec_flagThenReg (i := .addReg x y) (s := s) (result := fun _ => s.getV x + s.getV y) rfl
  refine ⟨t, ht, fun hne => ?_, fun heq => ?_, hframe⟩
  · rw [hx, hflag hne]
    exact add_toNat_add_carryFlag _ _
  · subst heq
    rw [hx]
    exact BitVec.toNat_add _ _

/-- An instruction whose meaning is the flag of V[a] > V[b] and then V[x] = V[a] - V[b], none of the three VF: the second
statement reads both registers as they were. -/
theorem exec_difference {a b : RegNum} {u : State} (hx : x ≠ vf) (ha : a ≠ vf) (hb : b ≠ vf)
    (hu : u = s.setV vf (greaterFlag (s.getV a) (s.getV b))) (h : exec i s = .next (u.setV x (u.getV a - u.getV b))) :
    ∃ t, exec i s = .next t ∧ (t.getV x).toNat = ((s.getV a).toNat + 256 - (s.getV b).toNat) % 256 ∧
      (t.getV vf).toNat = (if (s.getV a).toNat > (s.getV b).toNat then 1 else 0) ∧
      Frame { regs := regAndFlag x } s t := by
  subst hu
  obtain ⟨t, ht, hres, hflag, hframe⟩ := exec_flagThenReg (result := fun u => u.getV a - u.getV b) h
  rw [s.getV_setV_other _ ha, s.getV_setV_other _ hb] at hres
  exact ⟨t, ht, hres ▸ byte_sub_toNat _ _, hflag hx ▸ greaterFlag_toNat _ _, hframe⟩

/-- Settles O25: SUB takes V[y] from V[x], SUBN V[x] from V[y]. -/
theorem subtractStrictFlag : Obligations.SubtractStrictFlag := fun _ _ _ hx hy =>
  ⟨exec_difference hx hx hy rfl rfl, exec_difference hx hy hx rfl rfl⟩

/-- Settles O27: the flag is the bit shifted out, and with x = 15 it is the flag that is shifted. -/
theorem shiftsKeepEveryBit : Obligations.ShiftsKeepEveryBit := by
  intro x s
  constructor
  · obtain ⟨t, ht, hres, hflag, hframe⟩ :=
      exec_flagThenReg (i := .shr x) (s := s) (result := fun u => u.getV x >>> 1) rfl
    refine ⟨t, ht, fun hne => ?_, fun heq => ?_, hframe⟩
    · rw [hres, hflag hne, s.getV_setV_other _ hne, shiftRight_one_toNat, lowBitFlag_toNat]
      omega
    · subst heq
      apply BitVec.eq_of_toNat_eq
      rw [hres, s.getV_setV_same, shiftRight_one_toNat, lowBitFlag_toNat]
      exact Nat.div_eq_of_lt (Nat.mod_lt _ Nat.two_pos)
  · obtain ⟨t, ht, hres, hflag, hframe⟩ :=
      exec_flagThenReg (i := .shl x) (s := s) (result := fun u => u.getV x <<< 1) rfl
    refine ⟨t, ht, fun hne => ?_, fun heq => ?_, hframe⟩
    · rw [hres, hflag hne, s.getV_setV_other _ hne, shiftLeft_one_toNat, highBitFlag_toNat]
      omega
    · subst heq
      rw [hres, s.getV_setV_same, shiftLeft_one_toNat, highBitFlag_toNat]
      omega

end Sys2Proof.Machine
end

section
/-! PROOFS. The index register and the memory it addresses: what each writer of I leaves in it, and what the stores and the
load at I do where they stay inside memory (43_index_memory R180 to R186). -/

namespace Sys2Proof.Machine

variable {s : State} {x : RegNum}

/-! ### Instructions that write I (R180 to R182) -/

/-- A glyph address is at most 0x54B, so neither the product nor the sum wraps (R182). -/
theorem glyphAddr_toNat (b : Byte) : (glyphAddr b).toNat = 0x050 + 5 * b.toNat := by
  have hb : (zextByte b).toNat = b.toNat := zextByte_toNat b
  simp only [glyphAddr, Config.fontBase]
  bv_omega

/-- Settles O45: each of the three is one write of I, and only the sum of ADD I,Vx can wrap. -/
theorem indexWriters : Obligations.IndexWriters := by
  intro nnn x s
  have hsum : (s.index + zextByte (s.getV x)).toNat = (s.index.toNat + (s.getV x).toNat) % 65536 := by
    rw [BitVec.toNat_add, zextByte_toNat]
  exact ⟨⟨_, rfl, zextAddr_toNat nnn, exec_frame (i := .ldI nnn) rfl⟩,
    ⟨_, rfl, hsum, exec_frame (i := .addI x) rfl⟩,
    ⟨_, rfl, glyphAddr_toNat (s.getV x), exec_frame (i := .ldF x) rfl⟩⟩

/-! ### The decimal digits (R183) -/

/-- Byte k of the three is the decimal digit of weight 10 ^ (2 - k). -/
theorem decimalDigits_getElem_toNat (b : Byte) (k : Nat) (hk : k < (decimalDigits b).length) :
    (decimalDigits b)[k].toNat = b.toNat / 10 ^ (2 - k) % 10 := by
  have hb : b.toNat < 256 := b.isLt
  simp only [decimalDigits_length] at hk
  interval_cases k <;> simp only [decimalDigits, List.getElem_cons_zero, List.getElem_cons_succ, BitVec.toNat_ofNat] <;>
    omega

/-- The byte at I + k after the store is that digit. -/
theorem peek_pokes_decimalDigits_toNat (m : Memory) (a : Nat) (b : Byte) {k : Nat} (hk : k < 3) :
    ((m.pokes a (decimalDigits b)).peek (a + k)).toNat = b.toNat / 10 ^ (2 - k) % 10 := by
  have hin : a ≤ a + k ∧ a + k < a + (decimalDigits b).length := by simp; omega
  rw [Memory.peek_pokes, dif_pos hin, decimalDigits_getElem_toNat, Nat.add_sub_cancel_left]

theorem exec_ldB_of_le (h : baseAddr s + 2 ≤ 0xFFF) :
    exec (.ldB x) s = .next (s.setMem (s.mem.pokes (baseAddr s) (decimalDigits (s.getV x)))) :=
  finish_eq_next.2 (storeBytes_ok _ s _ (by rw [decimalDigits_length]; omega))

/-- Settles O46: the three bytes are the digits of weight 100, 10 and 1, and a byte has no digit above them. -/
theorem bcdStoresDigits : Obligations.BcdStoresDigits := by
  intro x s hfit
  have hexec := exec_ldB_of_le (x := x) hfit
  have hdigit (k : Nat) (hk : k < 3) := peek_pokes_decimalDigits_toNat s.mem (baseAddr s) (s.getV x) hk
  refine ⟨_, hexec, ?_, fun k hk => ?_, exec_frame hexec⟩
  · have hbyte : (s.getV x).toNat < 256 := (s.getV x).isLt
    have hhundreds := hdigit 0 (by decide)
    rw [Nat.add_zero] at hhundreds
    rw [State.setMem_mem, hhundreds, hdigit 1 (by decide), hdigit 2 (by decide)]
    omega
  · rw [State.setMem_mem, hdigit k hk]
    exact Nat.le_of_lt_succ (Nat.mod_lt _ (by decide))

/-! ### Stores and loads of a run of registers (R184, R185) -/

theorem exec_stRegs_of_le (h : baseAddr s + x.toNat ≤ 0xFFF) :
    exec (.stRegs x) s = .next (s.setMem (s.mem.pokes (baseAddr s) (regsUpTo s x))) :=
  finish_eq_next.2 (storeBytes_ok _ s _ (by rw [regsUpTo_length]; omega))

/-- `peek_pokes_regsUpTo` for the number of a register. -/
theorem peek_pokes_regsUpTo_reg (m : Memory) (a : Nat) (s : State) {r : RegNum} (hr : r.toNat ≤ x.toNat) :
    (m.pokes a (regsUpTo s x)).peek (a + r.toNat) = s.getV r := by
  rw [peek_pokes_regsUpTo m a s hr, BitVec.ofNat_toNat, BitVec.setWidth_eq]

/-- Settles O47: the store that fits is one run of writes, the value of V[r] at I + r. -/
theorem storeRegsAtIndex : Obligations.StoreRegsAtIndex := by
  intro x s hfit
  have hexec := exec_stRegs_of_le hfit
  exact ⟨_, hexec, fun r hr => peek_pokes_regsUpTo_reg s.mem (baseAddr s) s hr, exec_frame hexec⟩

/-- Settles O48: the load that fits reads every byte from the memory it leaves alone. -/
theorem loadRegsFromIndex : Obligations.LoadRegsFromIndex := by
  intro x s hfit
  obtain ⟨v, hload, hregs⟩ := loadRegs_ok (x.toNat + 1) s (baseAddr s) 0 (by omega) (by omega)
  have hexec : exec (.ldRegs x) s = .next { s with v := v } := finish_eq_next.2 hload
  refine ⟨_, hexec, fun r hr => ?_, exec_frame hexec⟩
  rw [hregs r, if_pos (by omega), Nat.sub_zero]

/-- Settles O50: I is where it was, so the load reads the addresses the store wrote, and a store that answered fitted. -/
theorem storeThenLoadRestores : Obligations.StoreThenLoadRestores := by
  intro x s t u hstore hindex hbytes
  obtain ⟨hfit, rfl⟩ := exec_stRegs_next hstore
  have hbase : baseAddr u = baseAddr s := congrArg BitVec.toNat hindex
  obtain ⟨v, hexec, hload, -⟩ := loadRegsFromIndex x u (by omega)
  refine ⟨v, hexec, fun r hr => ?_⟩
  have hin : bytesFrom (baseAddr s) (x.toNat + 1) (baseAddr s + r.toNat) = true := by
    simp only [bytesFrom, decide_eq_true_eq]
    omega
  calc v.getV r = u.mem.peek (baseAddr s + r.toNat) := hbase ▸ hload r hr
    _ = (s.mem.pokes (baseAddr s) (regsUpTo s x)).peek (baseAddr s + r.toNat) := hbytes _ hin
    _ = s.getV r := peek_pokes_regsUpTo_reg s.mem (baseAddr s) s hr

end Sys2Proof.Machine
end

section
/-! PROOFS. The framebuffer unit: what CLS and DRW leave in the picture and in VF (44_display R200 to R202). -/

namespace Sys2Proof.Machine

variable {s : State} {x y : RegNum} {n : Nibble}

/-! ### Clearing the picture (R200) -/

/-- Settles O30: the one write is of the blank picture. -/
theorem clsClearsPicture : Obligations.ClsClearsPicture := fun _ =>
  ⟨_, rfl, fun _ _ => pixelAt_blank _ _, exec_frame (i := .cls) rfl⟩

/-! ### A sprite of no rows (R201) -/

/-- The row loop has no round, so the picture is the one before and no pixel was met. -/
theorem exec_drw_zero (x y : RegNum) (s : State) : exec (.drw x y 0) s = .next (s.setV vf 0) := rfl

/-- Settles O32: what is left of DRW is the write of VF. -/
theorem drwOfZeroRows : Obligations.DrwOfZeroRows := fun x y s =>
  exec_oneReg (exec_drw_zero x y s)

/-! ### The cells a sprite draws on (R201, R202) -/

/-- A drawn cell is the place of a set bit `d` of a row `r` of the sprite. -/
theorem spriteOn_iff {row col : Nat} : spriteOn s x y n row col = true ↔
    ∃ r < n.toNat, ∃ d < 8, spriteBit (spriteByte s r) d = true ∧ row = startRow s y + r ∧ col = startCol s x + d := by
  simp only [spriteOn, Bool.and_eq_true, decide_eq_true_eq]
  constructor
  · rintro ⟨⟨hrow, hrowEnd, hcol, hcolEnd⟩, hbit⟩
    exact ⟨row - startRow s y, by omega, col - startCol s x, by omega, hbit, by omega, by omega⟩
  · rintro ⟨r, hr, d, hd, hbit, rfl, rfl⟩
    rw [Nat.add_sub_cancel_left, Nat.add_sub_cancel_left]
    exact ⟨by omega, hbit⟩

/-- The cells the row loop inverts (`drawRows_ok`) are the sprite's. -/
theorem any_rowCovers_eq_spriteOn (row col : Nat) :
    ((List.range n.toNat).any fun r => decide (row = startRow s y + r) && rowCovers s (startCol s x) r col) =
      spriteOn s x y n row col := by
  rw [Bool.eq_iff_iff, spriteOn_iff]
  simp only [rowCovers, List.any_eq_true, List.mem_range, Bool.and_eq_true, decide_eq_true_eq]
  exact exists_congr fun r => and_congr_right fun _ =>
    ⟨fun ⟨hrow, d, hd, hbit, hcol⟩ => ⟨d, hd, hbit, hrow, hcol⟩,
      fun ⟨d, hd, hbit, hrow, hcol⟩ => ⟨hrow, d, hd, hbit, hcol⟩⟩

/-- The row loop reports a collision (`drawRows_ok`) exactly when the sprite draws on a pixel that is on. -/
theorem any_rowMeets_iff : ((List.range n.toNat).any fun r => rowMeets s s.fb (startCol s x) (startRow s y) r) = true ↔
    ∃ row col, spriteOn s x y n row col = true ∧ s.pixel row col = true := by
  simp only [spriteOn_iff, rowMeets, List.any_eq_true, List.mem_range, Bool.and_eq_true]
  constructor
  · rintro ⟨r, hr, d, hd, hbit, hon⟩
    exact ⟨_, _, ⟨r, hr, d, hd, hbit, rfl, rfl⟩, hon⟩
  · rintro ⟨_, _, ⟨r, hr, d, hd, hbit, rfl, rfl⟩, hon⟩
    exact ⟨r, hr, d, hd, hbit, hon⟩

/-! ### Drawing on the grid (R201) -/

theorem exec_drw_of_drawRows {c : Canvas}
    (h : drawRows s (startCol s x) (startRow s y) (List.range n.toNat) { fb := s.fb, hit := false } = .ok c) :
    exec (.drw x y n) s = .next ((s.setFb c.fb).setV vf (flag c.hit)) := by
  unfold startCol startRow at h
  simp only [exec, execDrw, Config.fbW, Config.fbH, h]

/-- A sprite whose rows can all be drawn leaves the XORed picture, and its collision flag says whether a drawn bit met a
pixel that was on. -/
theorem exec_drw_of_rowOnGrid (h : ∀ r < n.toNat, RowOnGrid s x y r) :
    ∃ c : Canvas, exec (.drw x y n) s = .next ((s.setFb c.fb).setV vf (flag c.hit)) ∧
      (∀ row col, pixelAt c.fb row col = (s.pixel row col ^^ spriteOn s x y n row col)) ∧
      (c.hit = true ↔ ∃ row col, spriteOn s x y n row col = true ∧ s.pixel row col = true) := by
  obtain ⟨c, hdraw, hpixel, hhit⟩ := drawRows_ok s (startCol s x) (startRow s y) (List.range n.toNat)
    { fb := s.fb, hit := false } List.nodup_range fun r hr => h r (List.mem_range.1 hr)
  refine ⟨c, exec_drw_of_drawRows hdraw, fun row col => ?_, ?_⟩
  · rw [hpixel, any_rowCovers_eq_spriteOn]
    rfl
  · rw [hhit, Bool.false_or, any_rowMeets_iff]

/-- Settles O31: the row loop runs to its end, and both outcomes of VF are those of the canvas's flag. -/
theorem drwXorsSprite : Obligations.DrwXorsSprite := by
  intro x y n s hgrid
  obtain ⟨c, hexec, hpixel, hhit⟩ := exec_drw_of_rowOnGrid hgrid
  refine ⟨_, hexec, hpixel, ?_, exec_frame hexec⟩
  rw [State.getV_setV_same]
  cases hc : c.hit with
  | true => exact .inl ⟨rfl, hhit.1 hc⟩
  | false =>
    exact .inr ⟨rfl, fun row col hon => Bool.eq_false_iff.2 fun hpix =>
      Bool.eq_false_iff.1 hc (hhit.2 ⟨row, col, hon, hpix⟩)⟩

end Sys2Proof.Machine
end

section
/-! PROOFS. The keypad and timer instructions: what each does where it raises no fault (45_keypad_timers R220 to R225). -/

namespace Sys2Proof.Machine

variable {s : State} {x : RegNum}

/-! ### The key skips (R220, R221) -/

/-- SKP on a key that exists is a skip on its state (R220). -/
theorem exec_skp_of_le (h : (s.getV x).toNat ≤ 15) :
    exec (.skp x) s = .next (skipIf (s.keys.getLsbD (s.getV x).toNat) s) := by
  simp only [exec, execSkp, selectedKey_ok h]

/-- SKNP on a key that exists is a skip on the negation of its state (R221). -/
theorem exec_sknp_of_le (h : (s.getV x).toNat ≤ 15) :
    exec (.sknp x) s = .next (skipIf (!s.keys.getLsbD (s.getV x).toNat) s) := by
  simp only [exec, execSknp, selectedKey_ok h]

/-- Settles O41: with V[x] at most 15 the key exists, and each of the two is a skip on it, SKNP on its negation. -/
theorem keySkipsTestKey : Obligations.KeySkipsTestKey := by
  intro x s hx
  have hskp := exec_skip (exec_skp_of_le hx)
  have hsknp := exec_skip (exec_sknp_of_le hx)
  simp only [Bool.not_eq_true', ← Bool.not_eq_true, ite_not] at hsknp
  exact ⟨hskp, hsknp⟩

/-! ### The wait for a key (R223) -/

/-- The scan stops at the least pressed key; with `leastKey_some`, at no other. -/
theorem leastKey_eq_some {keys : BitVec 16} {k : Nat} (hk : k < 16) (hdown : keys.getLsbD k = true)
    (hup : ∀ j < k, keys.getLsbD j = false) : leastKey keys = some k := by
  rw [leastKey, List.find?_range_eq_some]
  exact ⟨hdown, List.mem_range.2 hk, fun j hj => by rw [hup j hj]; rfl⟩

/-- The scan runs to its end where no key is pressed; by `leastKey_none`, nowhere else. -/
theorem leastKey_eq_none {keys : BitVec 16} (hup : ∀ k < 16, keys.getLsbD k = false) : leastKey keys = none := by
  rw [leastKey, List.find?_eq_none]
  intro k hk
  rw [hup k (List.mem_range.1 hk)]
  exact Bool.false_ne_true

theorem exec_ldVxK_of_some {k : Nat} (h : leastKey s.keys = some k) :
    exec (.ldVxK x) s = .next (s.setV x (BitVec.ofNat 8 k)) := by
  simp only [exec, execLdVxK, h]

theorem exec_ldVxK_of_none (h : leastKey s.keys = none) : exec (.ldVxK x) s = .next (s.setPc (s.pc - 2)) := by
  simp only [exec, execLdVxK, h]

/-- Settles O43: the scan's answer decides between one register write, of a number that fits a byte, and one write of
pc. -/
theorem waitKeyTakesLeast : Obligations.WaitKeyTakesLeast := by
  intro x s
  refine ⟨fun k hk hdown hup => ?_, fun hup => ?_⟩
  · obtain ⟨t, ht, hx, hframe⟩ := exec_oneReg (exec_ldVxK_of_some (x := x) (leastKey_eq_some hk hdown hup))
    refine ⟨t, ht, ?_, hframe⟩
    rw [hx, BitVec.toNat_ofNat]
    omega
  · exact ⟨_, exec_ldVxK_of_none (leastKey_eq_none hup), s.setPc_pc _, (WritesOnly.setPc _ rfl .refl).frame⟩

/-! ### The timer moves (R222, R224, R225) -/

/-- Settles O44: each of the three is one write, of what the source held before the tick. -/
theorem timerMoves : Obligations.TimerMoves := fun x s =>
  ⟨exec_oneReg rfl, ⟨_, rfl, s.setDt_dt (s.getV x), exec_frame (i := .ldDtVx x) rfl⟩,
    ⟨_, rfl, s.setSt_st (s.getV x), exec_frame (i := .ldStVx x) rfl⟩⟩

end Sys2Proof.Machine
end

section
/-! PROOFS. The exceptions: RomTooLarge belongs to `load` alone, and arithmetic has no fault to raise (60_exceptions R242,
R253). -/

namespace Sys2Proof.Machine

variable {s : State} {i : Instr} {f : Fault}

/-! ### The fault of a load (R242) -/

theorem load_eq_failed_iff {bytes : List Byte} : load bytes s = .failed f ↔
    3584 < bytes.length ∧ f = .romTooLarge bytes.length 3584 := by
  rcases Nat.lt_or_ge 3584 bytes.length with hlong | hfit
  · rw [load_failed hlong, LoadOutcome.failed.injEq, and_iff_right hlong, eq_comm]
  · simp [load_ok hfit, Nat.not_lt.2 hfit]

/-- A latched machine refuses its steps, so a step that faults started with the latch clear (R120). -/
theorem faulted_eq_none_of_step_fault (h : step s = .fault f) : s.faulted = none := by
  cases hf : s.faulted with
  | none => rfl
  | some g =>
    rw [step_latched hf] at h
    cases h

/-- None of the three places a step's fault comes from raises RomTooLarge. -/
theorem step_ne_romTooLarge (s : State) (a m : Nat) : step s ≠ .fault (.romTooLarge a m) := by
  intro h
  obtain hfetch | ⟨w, -, ⟨-, hrecord⟩ | ⟨i, -, hhandler⟩⟩ := step_fault (faulted_eq_none_of_step_fault h) h
  · cases (fetch_eq_error hfetch).2
  · cases hrecord
  · cases hhandler

/-- Settles O53: the length alone decides a load, and a failed one hands back the state it was given. -/
theorem romTooLargeOnlyFromLoad : Obligations.RomTooLargeOnlyFromLoad := by
  refine ⟨fun bytes s f => load_eq_failed_iff, fun bytes s hlong => ?_, step_ne_romTooLarge⟩
  rw [load_failed hlong]
  rfl

/-! ### Arithmetic (R253) -/

/-- The instructions of `HandlerFault` are RET, CALL, the key skips, DRW and those that store or load at I. -/
theorem HandlerFault.isArithmetic_eq_false (h : HandlerFault s i f) : i.isArithmetic = false := by
  cases h <;> rfl

/-- Settles O29: a handler answers, faults or refuses; no fault is an arithmetic instruction's, and no handler refuses. -/
theorem arithmeticNeverFaults : Obligations.ArithmeticNeverFaults := by
  intro i s hi
  cases h : exec i s with
  | next t => exact ⟨t, rfl⟩
  | fault f => exact absurd hi (Bool.eq_false_iff.1 (exec_fault h).isArithmetic_eq_false)
  | refused r => exact absurd h (exec_ne_refused i s r)

end Sys2Proof.Machine
end

section
/-! PROOFS. The launch of a run: the reset state with the image at 0x200 (70_reset_and_hazards R281 to R283, R290). -/

namespace Sys2Proof.Machine

variable {s t : State}

/-- The length alone decides whether a load answers, and a load that answers writes its bytes (R281). -/
theorem load_eq_ok_iff {bytes : List Byte} :
    load bytes s = .ok t ↔ bytes.length ≤ 3584 ∧ t = s.setMem (s.mem.pokes 0x200 bytes) := by
  rcases Nat.lt_or_ge 3584 bytes.length with hlong | hfit
  · simp [load_failed hlong, Nat.not_le.2 hlong]
  · rw [load_ok hfit, LoadOutcome.ok.injEq, and_iff_right hfit, eq_comm]

theorem Memory.getElem?_eq_peek_pokes (m : Memory) (a : Nat) (bs : List Byte) {k : Nat} (hk : k < bs.length) :
    bs[k]? = some ((m.pokes a bs).peek (a + k)) := by
  rw [Memory.peek_pokes, dif_pos (by omega), List.getElem?_eq_some_iff]
  exact ⟨hk, by simp only [Nat.add_sub_cancel_left]⟩

theorem Memory.peek_pokes_outside (m : Memory) (a : Nat) (bs : List Byte) {b : Nat} (hb : b < a ∨ a + bs.length ≤ b) :
    (m.pokes a bs).peek b = m.peek b := by
  rw [Memory.peek_pokes, dif_neg (by omega)]

/-- Settles O56: a launch is one load on the reset state of O54, and the load writes the image's bytes alone, all of them
above the font. -/
theorem launchIsResetWithImage : Obligations.LaunchIsResetWithImage := by
  intro r
  refine ⟨⟨fun ⟨s, h⟩ => (load_eq_ok_iff.1 h).1, fun hfit => ⟨_, load_ok hfit⟩⟩, fun s h => ?_⟩
  obtain ⟨-, rfl⟩ := load_eq_ok_iff.1 h
  obtain ⟨hv, hindex, hpc, hsp, hdt, hst, hpixel, hzero, hglyph, hfaulted⟩ := resetLeavesSpecValues.2 r.font
  refine ⟨hv, hindex, hpc, hsp, hdt, hst, hfaulted, hpixel, fun k hk => Memory.getElem?_eq_peek_pokes _ _ _ hk,
    fun d k => ?_, fun a ha => ?_⟩
  · rw [State.setMem_mem, Memory.peek_pokes_outside _ _ _ (by omega), hglyph]
  · rw [State.setMem_mem, Memory.peek_pokes_outside _ _ _ (by omega), hzero a (by omega)]

end Sys2Proof.Machine
end

section
/-! PROOFS. The remaining statements: where faults and refusals come from (20_memory, 40_step_cycle, 60_exceptions), what
the inputs reach (R117), operands that are VF (R163), drawing twice (R201), loads (R281) and runs (R288, R289). -/

namespace Sys2Proof.Machine

variable {s t : State} {i : Instr} {f : Fault} {x y : RegNum} {n : Nibble}

/-! ### Faults of the fetch, and refusals (R53, R120) -/

/-- Settles O8: of the three places a step's fault comes from, only the fetch raises FetchOutOfRange. -/
theorem fetchFaultsAboveFFE : Obligations.FetchFaultsAboveFFE := by
  intro s p hf
  constructor
  · intro h
    obtain hfetch | ⟨w, -, ⟨-, hrecord⟩ | ⟨i, -, hhandler⟩⟩ := step_fault hf h
    · obtain ⟨hout, hrecord⟩ := fetch_eq_error hfetch
      cases hrecord
      exact ⟨hout, rfl⟩
    · cases hrecord
    · cases hhandler
  · rintro ⟨hout, rfl⟩
    exact step_of_fetch_error hf (fetch_error hout)

theorem endStep_eq_refused {r : Result} {q : Refusal} : endStep r = .refused q ↔ r = .refused q := by
  cases r <;> simp [endStep]

/-- With the latch clear a step ends in the fault of its fetch or its dispatch, or as its handler does, and no handler
refuses. -/
theorem step_ne_refused (hf : s.faulted = none) (q : Refusal) : step s ≠ .refused q := by
  intro h
  rcases Nat.lt_or_ge 0xFFE s.pc.toNat with hout | hpc
  · rw [step_of_fetch_error hf (fetch_error hout)] at h
    cases h
  · cases hd : decodeWord (wordOfBytes (s.mem.peek s.pc.toNat) (s.mem.peek (s.pc.toNat + 1))) with
    | none =>
      rw [step_invalidOpcode hf (fetch_ok hpc) hd] at h
      cases h
    | some i =>
      rw [step_eq hf hpc hd] at h
      exact exec_ne_refused i s.advance q (endStep_eq_refused.1 h)

/-- Settles O10: the latch decides, set by `step_latched`, clear by `step_ne_refused`. -/
theorem refusedExactlyWhenLatched : Obligations.RefusedExactlyWhenLatched := by
  intro s r
  constructor
  · intro h
    cases hf : s.faulted with
    | none => exact absurd h (step_ne_refused hf r)
    | some f =>
      rw [step_latched hf] at h
      cases h
      exact ⟨f, rfl, rfl⟩
  · rintro ⟨f, hf, rfl⟩
    exact step_latched hf

/-! ### After a fault (R251, R252) -/

/-- Settles O11: the faulted machine is latched whatever `u` is, presenting inputs and loading leave the latch alone,
and the step that faulted is the host's step with the inputs the state held. -/
theorem faultIsFinalUntilReset : Obligations.FaultIsFinalUntilReset := by
  intro s u f h
  refine ⟨fun _ _ => step_latched rfl, fun bytes t hload => ?_,
    fun _ => ⟨.stepFault s u s.keys s.rnd f h, .reset _, rfl⟩⟩
  obtain ⟨-, rfl⟩ := load_eq_ok_iff.1 hload
  rfl

/-! ### Which handler raises which fault (R240, R244 to R248) -/

/-- Settles O20: `exec_fault` lists the faults of every handler, each with its condition and its record. -/
theorem faultsComeFromTheirInstructions : Obligations.FaultsComeFromTheirInstructions := by
  intro i s f h
  cases exec_fault h with
  | ret hsp => exact ⟨rfl, hsp, rfl⟩
  | call nnn hsp => exact ⟨⟨nnn, rfl⟩, hsp, rfl⟩
  | skp x hx => exact ⟨hx, x, .inl rfl, rfl⟩
  | sknp x hx => exact ⟨hx, x, .inr rfl, rfl⟩
  | drwByte x y n a ha => exact ⟨ha, .inl ⟨x, y, n, rfl⟩⟩
  | ldB x a ha => exact ⟨ha, .inr (.inl ⟨x, rfl⟩)⟩
  | stRegs x a ha => exact ⟨ha, .inr (.inr (.inl ⟨x, rfl⟩))⟩
  | ldRegs x a ha => exact ⟨ha, .inr (.inr (.inr ⟨x, rfl⟩))⟩
  | drwPixel x y n cx cy hoff => exact ⟨⟨x, y, n, rfl⟩, hoff⟩

/-- Settles O42: a register above 15 names no key, so both skips hand on the fault of the lookup (R226). -/
theorem keySkipsFaultAbove15 : Obligations.KeySkipsFaultAbove15 := by
  intro x s hx
  simp only [exec, execSkp, execSknp, selectedKey_error hx, raise, and_self]

/-- Settles O49: each of the three is one run of bytes, whose first address above 0xFFF is I itself or 0x1000. -/
theorem memoryAccessFaultAddress : Obligations.MemoryAccessFaultAddress := by
  intro x s
  have hstore {bs : List Byte} (hout : 0x1000 < baseAddr s + bs.length) (hlen : 0 < bs.length) :
      finish (storeBytes s (baseAddr s) bs) = .fault (.memOutOfRange (max (baseAddr s) 0x1000)) :=
    finish_eq_fault.2 (storeBytes_error bs s _ hout (List.ne_nil_of_length_pos hlen))
  refine ⟨fun hout => hstore ?_ (Nat.succ_pos 2), fun hout => ⟨hstore ?_ ?_,
    finish_eq_fault.2 (loadRegs_error _ s _ 0 (by omega) (Nat.succ_ne_zero _))⟩⟩
  · rw [decimalDigits_length]; omega
  · rw [regsUpTo_length]; omega
  · rw [regsUpTo_length]; exact Nat.succ_pos _

/-! ### What the inputs of a step reach (R117) -/

section

variable (keys : BitVec 16) (rnd : Byte)

theorem skipIf_present (c : Bool) (s : State) : skipIf c (s.present keys rnd) = (skipIf c s).present keys rnd := by
  cases c <;> rfl

theorem finish_map_present (r : Except Fault State) :
    finish (r.map (·.present keys rnd)) = mapNext (·.present keys rnd) (finish r) := by
  cases r <;> rfl

theorem pushReturn_present (s : State) :
    pushReturn (s.present keys rnd) = (pushReturn s).map (·.present keys rnd) := by
  by_cases hsp : s.sp.val < 16
  · rw [pushReturn_ok hsp, pushReturn_ok (s := s.present keys rnd) hsp]; rfl
  · rw [pushReturn_error (show s.sp.val = 16 by omega),
      pushReturn_error (s := s.present keys rnd) (show s.sp.val = 16 by omega)]; rfl

theorem popReturn_present (s : State) :
    popReturn (s.present keys rnd) = (popReturn s).map (·.present keys rnd) := by
  by_cases hsp : 0 < s.sp.val
  · rw [popReturn_ok hsp, popReturn_ok (s := s.present keys rnd) hsp]; rfl
  · rw [popReturn_error (show s.sp.val = 0 by omega),
      popReturn_error (s := s.present keys rnd) (show s.sp.val = 0 by omega)]; rfl

theorem storeBytes_present (bs : List Byte) (s : State) (a : Nat) :
    storeBytes (s.present keys rnd) a bs = (storeBytes s a bs).map (·.present keys rnd) := by
  induction bs generalizing s a with
  | nil => rfl
  | cons b bs ih =>
    rw [storeBytes, storeBytes, memWrite_eq, memWrite_eq]
    by_cases ha : a < 0x1000
    · rw [if_pos ha, if_pos ha]
      exact ih (s.setMem (s.mem.poke a b)) (a + 1)
    · rw [if_neg ha, if_neg ha]; rfl

theorem loadRegs_present (count : Nat) (s : State) (a k : Nat) :
    loadRegs (s.present keys rnd) a k count = (loadRegs s a k count).map (·.present keys rnd) := by
  induction count generalizing s a k with
  | zero => rfl
  | succ count ih =>
    rw [loadRegs, loadRegs, memRead_eq, memRead_eq]
    by_cases ha : a < 0x1000
    · rw [if_pos ha, if_pos ha]
      exact ih (s.setV (BitVec.ofNat 4 k) (s.mem.peek a)) (a + 1) (k + 1)
    · rw [if_neg ha, if_neg ha]; rfl

/-- The draw loop reads I and memory of the state it is given, and nothing else. -/
theorem drawRows_congr (hindex : t.index = s.index) (hmem : t.mem = s.mem) (px py : Nat) (rows : List Nat)
    (c : Canvas) : drawRows t px py rows c = drawRows s px py rows c := by
  induction rows generalizing c with
  | nil => rfl
  | cons r rows ih => simp only [drawRows, memRead_eq, hindex, hmem, ih]

/-- A handler run with other inputs does what it did, if it does not read the inputs that are other. -/
theorem exec_present (hkeys : i.readsKeys = false ∨ keys = s.keys) (hrnd : i.readsRnd = false ∨ rnd = s.rnd) :
    exec i (s.present keys rnd) = mapNext (·.present keys rnd) (exec i s) := by
  cases i with
  | rnd x kk =>
    obtain rfl := hrnd.resolve_left Bool.noConfusion
    rfl
  | skp x | sknp x =>
    obtain rfl := hkeys.resolve_left Bool.noConfusion
    have hkey : selectedKey (s.present s.keys rnd) x = selectedKey s x := rfl
    simp only [exec, execSkp, execSknp, hkey]
    split
    · exact congrArg _ (skipIf_present s.keys rnd _ s)
    · rfl
  | ldVxK x =>
    obtain rfl := hkeys.resolve_left Bool.noConfusion
    simp only [exec, execLdVxK, State.present_keys]
    split <;> rfl
  | ret => exact (congrArg finish (popReturn_present keys rnd s)).trans (finish_map_present keys rnd _)
  | call nnn =>
    simp only [exec, execCall, pushReturn_present]
    cases pushReturn s <;> rfl
  | ldB x | stRegs x =>
    exact (congrArg finish (storeBytes_present keys rnd _ s _)).trans (finish_map_present keys rnd _)
  | ldRegs x => exact (congrArg finish (loadRegs_present keys rnd _ s _ _)).trans (finish_map_present keys rnd _)
  | drw x y n =>
    simp only [exec, execDrw, State.present_getV, State.present_fb,
      drawRows_congr (s := s) (t := s.present keys rnd) rfl rfl]
    split <;> rfl
  | seImm x kk | sneImm x kk => exact congrArg _ (skipIf_present keys rnd _ s)
  | seReg x y | sneReg x y => exact congrArg _ (skipIf_present keys rnd _ s)
  | _ => rfl

end

theorem mapNext_congr {r : Result} {g h : State → State} (hgh : ∀ t, r = .next t → g t = h t) :
    mapNext g r = mapNext h r := by
  cases r with
  | next t => exact congrArg _ (hgh t rfl)
  | fault f => rfl
  | refused q => rfl

theorem Frame.inputs_eq {w : Writes} (h : Frame w s t) : t.keys = s.keys ∧ t.rnd = s.rnd := by
  obtain ⟨-, -, -, -, -, -, -, -, hkeys, hrnd, -⟩ := h
  exact ⟨hkeys, hrnd⟩

theorem Frame.faulted_eq {w : Writes} (h : Frame w s t) : t.faulted = s.faulted := by
  obtain ⟨-, -, -, -, -, -, -, -, -, -, -, hlatch⟩ := h
  exact hlatch

/-- Settles O15: `exec_present`, with one input other and the other input, by the frame, still that of `s`. -/
theorem inputsReadOnlyByNamed : Obligations.InputsReadOnlyByNamed := by
  intro i s keys rnd
  refine ⟨fun hi => ?_, fun hi => ?_⟩
  · rw [exec_present keys s.rnd (.inl hi) (.inr rfl)]
    refine mapNext_congr fun t ht => ?_
    obtain ⟨-, hrnd⟩ := (exec_frame ht).inputs_eq
    rw [hrnd]
  · rw [exec_present s.keys rnd (.inr rfl) (.inl hi)]
    refine mapNext_congr fun t ht => ?_
    obtain ⟨hkeys, -⟩ := (exec_frame ht).inputs_eq
    rw [hkeys]

/-! ### SUB and SUBN with VF as an operand (R163) -/

/-- An instruction whose meaning is a write of VF and then another one leaves the second value, and changes VF alone. -/
theorem exec_flagThenFlag {c b : Byte} (h : exec i s = .next ((s.setV vf c).setV vf b)) :
    ∃ t, exec i s = .next t ∧ t.getV vf = b ∧ Frame { regs := oneReg vf } s t :=
  exec_oneReg (h.trans (congrArg _ (s.setV_setV vf c b)))

/-- A difference that goes to VF: the flag is an operand of it before it is overwritten. -/
theorem exec_differenceIntoFlag {a b : RegNum} {u : State} {c : Byte} (hu : u = s.setV vf c)
    (h : exec i s = .next (u.setV vf (u.getV a - u.getV b))) :
    ∃ t, exec i s = .next t ∧ (t.getV vf).toNat = ((u.getV a).toNat + 256 - (u.getV b).toNat) % 256 ∧
      Frame { regs := oneReg vf } s t := by
  subst hu
  obtain ⟨t, ht, hres, hframe⟩ := exec_flagThenFlag h
  exact ⟨t, ht, hres ▸ byte_sub_toNat _ _, hframe⟩

/-- A difference that goes to another register: it reads the flag of V[a] > V[b], which stays in VF. -/
theorem exec_differenceThroughFlag {r a b p q : RegNum} {u : State} (hr : r ≠ vf)
    (hu : u = s.setV vf (greaterFlag (s.getV a) (s.getV b))) (h : exec i s = .next (u.setV r (u.getV p - u.getV q))) :
    ∃ t, exec i s = .next t ∧ (t.getV vf).toNat = (if (s.getV a).toNat > (s.getV b).toNat then 1 else 0) ∧
      t.getV vf = u.getV vf ∧ (t.getV r).toNat = ((u.getV p).toNat + 256 - (u.getV q).toNat) % 256 ∧
      Frame { regs := regAndFlag r } s t := by
  subst hu
  obtain ⟨t, ht, hres, hflag, hframe⟩ := exec_flagThenReg (result := fun u => u.getV p - u.getV q) h
  exact ⟨t, ht, hflag hr ▸ greaterFlag_toNat _ _, (hflag hr).trans (s.getV_setV_same vf _).symm,
    hres ▸ byte_sub_toNat _ _, hframe⟩

/-- Settles O26: in each form the second statement's VF is the flag just written and its V[r] is the one before. -/
theorem subtractThroughFlag : Obligations.SubtractThroughFlag := by
  intro r s hr
  have hother (c : Byte) : (s.setV vf c).getV r = s.getV r := s.getV_setV_other c hr
  refine ⟨?_, ?_, ?_, ?_, ?_, ?_⟩
  · simpa only [hother, State.getV_setV_same, greaterFlag_toNat] using
      exec_differenceIntoFlag (i := .subReg vf r) (s := s) (a := vf) (b := r) rfl rfl
  · obtain ⟨t, ht, hflag, hkept, hres, hframe⟩ :=
      exec_differenceThroughFlag (i := .subReg r vf) (s := s) (p := r) (q := vf) hr rfl rfl
    rw [hother, ← hkept] at hres
    exact ⟨t, ht, hflag, hres, hframe⟩
  · simpa only [hother, State.getV_setV_same, greaterFlag_toNat] using
      exec_differenceIntoFlag (i := .subnReg vf r) (s := s) (a := r) (b := vf) rfl rfl
  · obtain ⟨t, ht, hflag, hkept, hres, hframe⟩ :=
      exec_differenceThroughFlag (i := .subnReg r vf) (s := s) (p := vf) (q := r) hr rfl rfl
    rw [hother, ← hkept] at hres
    exact ⟨t, ht, hflag, hres, hframe⟩
  · obtain ⟨t, ht, hres, hframe⟩ := exec_flagThenFlag (i := .subReg vf vf) (s := s) rfl
    exact ⟨t, ht, hres.trans (BitVec.sub_self _), hframe⟩
  · obtain ⟨t, ht, hres, hframe⟩ := exec_flagThenFlag (i := .subnReg vf vf) (s := s) rfl
    exact ⟨t, ht, hres.trans (BitVec.sub_self _), hframe⟩

/-! ### The first fault of a sprite (R203, R250) -/

theorem exec_drw_of_drawRows_error
    (h : drawRows s (startCol s x) (startRow s y) (List.range n.toNat) { fb := s.fb, hit := false } = .error f) :
    exec (.drw x y n) s = .fault f := by
  unfold startCol startRow at h
  simp only [exec, execDrw, Config.fbW, Config.fbH, h, raise]

/-- Settles O33: the row loop passes the rows that can be drawn, and hands on the fault of the first that cannot. -/
theorem drwReportsFirstFault : Obligations.DrwReportsFirstFault := by
  intro x y n s r hr hgrid
  obtain ⟨haddress, hpixel⟩ :=
    drawRows_error s (startCol s x) (startRow s y) hr hgrid { fb := s.fb, hit := false }
  exact ⟨fun hout => exec_drw_of_drawRows_error (haddress hout),
    fun hin c hc hbit hoff hleast => exec_drw_of_drawRows_error (hpixel hin c hc hbit (by omega) hleast)⟩

/-! ### The same sprite drawn twice (R201) -/

theorem exec_next_ne_fault (h : exec i s = .next t) : exec i s ≠ .fault f := by
  rw [h]
  exact nofun

/-- DRW answers only where every row can be drawn: otherwise the first that cannot would have been its fault. -/
theorem rowOnGrid_of_exec_drw_next (h : exec (.drw x y n) s = .next t) (r : Nat) (hr : r < n.toNat) :
    RowOnGrid s x y r := by
  induction r using Nat.strong_induction_on with
  | _ r ihr =>
    obtain ⟨haddress, hpixel⟩ := drwReportsFirstFault x y n s r hr fun q hq => ihr q hq (by omega)
    have hin : baseAddr s + r ≤ 0xFFF := by
      by_contra hout
      exact exec_next_ne_fault h (haddress (by omega))
    refine ⟨hin, fun c => ?_⟩
    induction c using Nat.strong_induction_on with
    | _ c ihc =>
      intro hc hbit
      by_contra hoff
      exact exec_next_ne_fault h (hpixel hin c hc hbit (by omega) fun d hd => ihc d hd (by omega))

/-- A picture is its pixels (R28). -/
theorem pixelAt_ext {fb gb : Vector (BitVec 64) 32} (h : ∀ row col, pixelAt fb row col = pixelAt gb row col) :
    fb = gb := by
  refine Vector.ext fun row hrow => BitVec.eq_of_getLsbD_eq fun col _ => ?_
  simpa only [pixelAt, dif_pos hrow] using h row col

/-- A sprite is its place and its bytes (R201). -/
theorem spriteOn_congr (hcol : startCol t x = startCol s x) (hrow : startRow t y = startRow s y)
    (hbyte : ∀ r, spriteByte t r = spriteByte s r) (row col : Nat) :
    spriteOn t x y n row col = spriteOn s x y n row col := by
  simp only [spriteOn, hcol, hrow, hbyte]

theorem RowOnGrid.congr {r : Nat} (h : RowOnGrid s x y r) (hbase : baseAddr t = baseAddr s)
    (hcol : startCol t x = startCol s x) (hrow : startRow t y = startRow s y)
    (hbyte : ∀ r, spriteByte t r = spriteByte s r) : RowOnGrid t x y r := by
  simpa only [RowOnGrid, hbase, hcol, hrow, hbyte] using h

/-- Settles O34: DRW writes only VF and the picture, so the second draw has the place and the bytes of the first,
inverts the same pixels again, and meets those that the first turned on. -/
theorem drawTwiceRestoresPicture : Obligations.DrawTwiceRestoresPicture := by
  intro x y n s t hx hy h
  obtain ⟨hregs, hmem, hindex, -⟩ := exec_frame h
  have hcol : startCol t x = startCol s x := by
    rw [startCol, startCol, hregs x (by simpa [Instr.writes, oneReg] using hx)]
  have hrow : startRow t y = startRow s y := by
    rw [startRow, startRow, hregs y (by simpa [Instr.writes, oneReg] using hy)]
  have hbase : baseAddr t = baseAddr s := congrArg BitVec.toNat (hindex rfl)
  have hbyte (r : Nat) : spriteByte t r = spriteByte s r := by
    rw [spriteByte, spriteByte, hbase, hmem _ rfl]
  have hgrid : ∀ r < n.toNat, RowOnGrid s x y r := rowOnGrid_of_exec_drw_next h
  obtain ⟨t', ht', hfirst, -⟩ := drwXorsSprite x y n s hgrid
  obtain rfl : t = t' := Host.Outcome.next.inj (h.symm.trans ht')
  obtain ⟨u, hu, hsecond, hflag, -⟩ :=
    drwXorsSprite x y n t fun r hr => (hgrid r hr).congr hbase hcol hrow hbyte
  simp only [spriteOn_congr hcol hrow hbyte, hfirst] at hsecond hflag
  refine ⟨u, hu, pixelAt_ext fun row col => ?_, ?_⟩
  · calc u.pixel row col = (s.pixel row col ^^ spriteOn s x y n row col ^^ spriteOn s x y n row col) := hsecond row col
      _ = s.pixel row col := by rw [Bool.xor_assoc, Bool.xor_self, Bool.xor_false]
  · obtain ⟨hone, row, col, hon, hmet⟩ | ⟨hzero, hmiss⟩ := hflag
    · exact .inl ⟨hone, row, col, hon, by simpa [hon] using hmet⟩
    · exact .inr ⟨hzero, fun row col hon => by simpa [hon] using hmiss row col hon⟩

/-! ### Loads (R281) -/

/-- A run of writes inside memory writes its own bytes. -/
theorem WritesOnly.of_pokes {w : Writes} {a : Nat} {bs : List Byte} (ha : a + bs.length ≤ 0x1000)
    (hw : ∀ c, a ≤ c → c < a + bs.length → w.mem c = true) : WritesOnly w s (s.setMem (s.mem.pokes a bs)) :=
  .of_storeBytes (storeBytes_ok bs s a ha) hw .refl

/-- Settles O52: a load that fits is one run of writes, which ends inside memory. -/
theorem loadWritesImage : Obligations.LoadWritesImage := by
  intro bytes s hfit
  refine ⟨_, load_ok hfit, fun k hk => Memory.getElem?_eq_peek_pokes s.mem 0x200 bytes hk,
    (WritesOnly.of_pokes (by omega) fun c h1 h2 => ?_).frame⟩
  simp only [bytesFrom, decide_eq_true_eq]
  exact ⟨h1, h2⟩

/-! ### Runs (R288) -/

section

variable {r q : Run} {j k : Nat}

theorem Run.after_congr (hfont : r.font = q.font) (himage : r.image = q.image)
    (hinputs : ∀ j < k, r.inputs j = q.inputs j) : r.after k = q.after k := by
  induction k with
  | zero => simp only [Run.after, Run.launch, hfont, himage]
  | succ k ih =>
    have hk : r.after k = q.after k := ih fun j hj => hinputs j (by omega)
    exact Option.ext fun t => by rw [Run.after_succ_eq_some, Run.after_succ_eq_some, hk, hinputs k (by omega)]

theorem Run.after_succ_eq_none (h : r.after k = none) : r.after (k + 1) = none := by
  rw [Option.eq_none_iff_forall_ne_some]
  intro t ht
  obtain ⟨s, hs, -⟩ := Run.after_succ_eq_some.1 ht
  cases h.symm.trans hs

/-- Settles O57: both by induction on the steps, one step looking at the state before it and its own inputs. -/
theorem runStateFromImageAndInputs : Obligations.RunStateFromImageAndInputs := by
  intro r q k hfont himage hinputs
  refine ⟨Run.after_congr hfont himage hinputs, fun hnone n => ?_⟩
  induction n with
  | zero => exact hnone
  | succ n ih => exact Run.after_succ_eq_none ih

/-- A step that answers started with the latch clear, and its handler left it so (R120, R32). -/
theorem step_next_faulted (h : step s = .next t) : t.faulted = none := by
  obtain ⟨i, u, hf, -, -, hu, rfl⟩ := step_next h
  exact (exec_frame hu).faulted_eq.trans hf

/-- A load that answers is a move of the host (R281). -/
theorem hostMove_of_load {font : Font} {bytes : List Byte} (h : load bytes s = .ok t) : HostMove font s t := by
  have hmove : HostMove font s (afterLoad s (load bytes s)) := .load s bytes
  rwa [h] at hmove

/-- Settles O58: a run starts with a reset and a load, and goes on by steps that answer. -/
theorem runStatesUnfaulted : Obligations.RunStatesUnfaulted := by
  intro r k
  induction k with
  | zero =>
    intro t h
    have hload : load r.image (State.resetWith r.font) = .ok t := Run.after_zero_eq_some.1 h
    refine ⟨?_, .move _ t .reset (hostMove_of_load hload)⟩
    obtain ⟨-, rfl⟩ := load_eq_ok_iff.1 hload
    rfl
  | succ k ih =>
    intro t h
    obtain ⟨s, hs, hstep⟩ := Run.after_succ_eq_some.1 h
    obtain ⟨-, hreach⟩ := ih s hs
    exact ⟨step_next_faulted hstep, .move s t hreach (.step s t _ _ hstep)⟩

/-! ### The end of a run by idle loop (R289) -/

theorem stepWith_of_idle (h : s.idle = true) (keys : BitVec 16) (rnd : Byte) :
    stepWith keys rnd s = .next (s.present keys rnd).tick.nextInputs :=
  step_of_idle ((State.idle_congr (s := s) rfl rfl rfl).trans h)

/-- No idle state of a run is before its idle end. -/
theorem Run.EndsIdle.le {u : State} (h : r.EndsIdle k t) (hj : r.after j = some u) (hu : u.idle = true) : k ≤ j := by
  obtain ⟨-, -, hfirst⟩ := h
  by_contra hlt
  exact Bool.eq_false_iff.1 (hfirst j (by omega) u hj) hu

theorem Run.EndsIdle.unique {u : State} (hk : r.EndsIdle k t) (hj : r.EndsIdle j u) : j = k ∧ u = t := by
  obtain ⟨hkt, ht, -⟩ := id hk
  obtain ⟨hju, hu, -⟩ := id hj
  obtain rfl : j = k := Nat.le_antisymm (hj.le hkt ht) (hk.le hju hu)
  exact ⟨rfl, Option.some.inj (hju.symm.trans hkt)⟩

/-- Settles O59: an idle state's step changes the timers and the inputs alone, under any inputs, so by induction every
later state is idle and otherwise the same. -/
theorem idleEndPersists : Obligations.IdleEndPersists := by
  intro r k t hend
  refine ⟨fun n => ?_, fun j u => hend.unique⟩
  obtain ⟨hafter, hidle, -⟩ := hend
  induction n with
  | zero =>
    obtain ⟨hlatch, -⟩ := t.idle_iff.1 hidle
    exact ⟨t, hafter, hidle, rfl, rfl, rfl, rfl, rfl, rfl, rfl, hlatch, rfl, rfl⟩
  | succ n ih =>
    obtain ⟨u, hu, hui, hpc, hv, hindex, hsp, hstack, hmem, hfb, hlatch, hdt, hst⟩ := ih
    refine ⟨_, Run.after_succ_eq_some.2 ⟨u, hu, stepWith_of_idle hui _ _⟩,
      (State.idle_congr rfl rfl rfl).trans hui, hpc, hv, hindex, hsp, hstack, hmem, hfb, hlatch, ?_, ?_⟩
    · rw [tick_nextInputs_dt_toNat, State.present_dt, hdt, Nat.sub_sub]
    · rw [tick_nextInputs_st_toNat, State.present_st, hst, Nat.sub_sub]

end

end Sys2Proof.Machine
end
